-- ==== Sys2Proof/Word.lean ====
section
/-! DEFINITION. The two word types of the block: the 8-bit register value (00_scope.md R8) and the
16-bit command word (30_encoding.md R70). -/

namespace Sys2Proof

/-- A register value of the block: 8 bits, unsigned (R8). -/
abbrev Byte := BitVec 8

/-- The command word W = (op, arg), a notation for the pair HR.CMD, HR.ARG (R54, R70). -/
abbrev Word := BitVec 16

/-- Bits 15:8 of a command word: the opcode, held in HR.CMD (R70). -/
abbrev Word.op (w : Word) : Byte := w.extractLsb' 8 8

/-- Bits 7:0 of a command word: the operand, held in HR.ARG (R70). -/
abbrev Word.arg (w : Word) : Byte := w.extractLsb' 0 8

end Sys2Proof
end

