-- ==== Sys2Proof/Syntax.lean ====
section
/-! DEFINITION. The five commands with their operands (30_encoding.md R71, R73), and the lines of the
spec's assembler with their disassembly (R76). -/

namespace Sys2Proof

/-- The direction of a transaction (R32, R71, R82). -/
inductive Direction where
  | write
  | read
deriving DecidableEq, Repr, Inhabited

/-- A command with its operand. Operand bits the hardware ignores are kept, because HR.ARG and
ENG.op_arg hold them (R35, R71); any value of them is legal. -/
inductive Instr where
  /-- INIT, op 0x01; the whole operand is ignored (R71, R132). -/
  | init (ignored : Byte)
  /-- START, op 0x02; arg[7:1] is the slave address, arg[0] the direction (R71, R140). -/
  | start (addr : BitVec 7) (dir : Direction)
  /-- WRITE, op 0x03; the operand is the data byte (R71, R160). -/
  | write (data : Byte)
  /-- READ_NACK, op 0x04; the whole operand is ignored (R71, R164). -/
  | readNack (ignored : Byte)
  /-- STOP, op 0x05; arg[7:1] is an address the hardware does not use, arg[0] is ignored
  (R71, R180). -/
  | stop (addr : BitVec 7) (ignored : BitVec 1)
deriving DecidableEq, Repr

/-- A line of the spec's assembler syntax, its numbers not yet checked for range (R76). -/
inductive AsmLine where
  | init
  | start (addr : Nat) (dir : Direction)
  | write (byte : Nat)
  | readNack
  | stop (addr : Nat)
deriving DecidableEq, Repr

/-- The disassembly of a command word: a line, or `.illegal 0xNN` for a reserved op (R76). -/
inductive Disassembly where
  | line (l : AsmLine)
  | illegal (op : Byte)
deriving DecidableEq, Repr

end Sys2Proof
end

