-- ==== Sys2Proof/Config.lean ====
section
/-! DEFINITION. What an implementation fixes (00_scope.md R6), the events the three agents and reset can
bring (40_engine_and_timeout_guard.md R101), and the one free value of the model: which event comes next
where the state's own agenda says nothing. -/

namespace Sys2Proof

/-- A wait budget, or a counter loaded from one: a number of polls, or the marker UNBOUNDED
(R6, R34). -/
inductive Budget where
  | polls (n : Nat)
  | unbounded
deriving DecidableEq, Repr, Inhabited

/-- The implementation parameters of R6, none of them checked yet. -/
structure Params where
  /-- F_CPU, the core clock frequency in Hz. -/
  fCpu : Nat
  /-- F_BUS, the target bus frequency in Hz. -/
  fBus : Nat
  /-- DIVISOR_MIN, the stability floor of the divisor. -/
  divisorMin : Nat
  /-- WAIT_BUDGET, the polls of each of START's two waits. -/
  waitBudget : Nat
  /-- STOP_WAIT_BUDGET. -/
  stopWaitBudget : Budget
  /-- BYTE_WAIT_BUDGET: unbounded is faithful mode, a number of polls is hardened mode. -/
  byteWaitBudget : Budget
  /-- HR_BASE, the base address of the host register space (R51). -/
  hrBase : Nat
deriving DecidableEq, Repr

/-- The default configuration of the spec's test vectors (95_test_vectors.md section 0), with the
divisor floor and the base address at 0. DESIGN CHOICE, log entry 2: unsafe for a claim that rests
on these numbers. -/
def Params.bench : Params where
  fCpu := 16000000
  fBus := 400000
  divisorMin := 0
  waitBudget := 3
  stopWaitBudget := .polls 3
  byteWaitBudget := .unbounded
  hrBase := 0

/-- BIU.pending, the action the BIU has outstanding (R44). -/
inductive Pending where
  | none
  | start
  | xfer
  | stop
deriving DecidableEq, Repr, Inhabited

/-- What one host access does: read a byte or write one (R10). -/
inductive HostOp where
  | read
  | write (v : Byte)
deriving DecidableEq, Repr, Inhabited

/-- One host access: its width in bits, the offset it names, and what it does. Only a width of 8 is
an access the block defines (R53). -/
structure HostAccess where
  width : Nat
  off : BitVec 3
  op : HostOp
deriving DecidableEq, Repr, Inhabited

/-- A completion the unsynchronised BIU may append to the bus log (R114). -/
inductive Completion where
  | done (code : BitVec 5) (data : Byte)
  | stopDone
deriving DecidableEq, Repr, Inhabited

/-- The draws of one BIU step (R110). A completion of a START or transfer action uses `code` and
`data` (R112), one of a STOP action uses none (R113), the unsynchronised BIU uses all (R114). -/
structure BiuDraw where
  code : BitVec 5
  data : Byte
  int : Bool
  sto : Bool
  pending : Pending
  append : Option Completion
deriving DecidableEq, Repr, Inhabited

/-- What can happen next: a step of one of the three agents (R5, R101), or power-on reset (R230). -/
inductive Event where
  | host (a : HostAccess)
  | engine
  | biu (d : BiuDraw)
  | reset
deriving DecidableEq, Repr, Inhabited

/-- An 8-bit host write of `v` to offset `off` (R10). -/
abbrev Event.hostWrite (off : BitVec 3) (v : Byte) : Event := .host ⟨8, off, .write v⟩

/-- An 8-bit host read of offset `off` (R10). -/
abbrev Event.hostRead (off : BitVec 3) : Event := .host ⟨8, off, .read⟩

/-- The completion step of a synchronised BIU that draws status code `code` and byte `data`
(R112). -/
abbrev Event.completes (code : BitVec 5) (data : Byte) : Event :=
  .biu ⟨code, data, false, false, .none, Option.none⟩

/-- FREE VALUE, log entry 1. The n-th event the environment brings once the state's agenda is empty:
any event at all, since any interleaving is a run and every draw is under no law (R101, R110). -/
opaque Config.environment : Nat → Event

end Sys2Proof
end

