-- ==== Sys2Proof/Machine/Operands.lean ====
section
/-! DEFINITION. Every operand form the spec gives: the direction bit, the SLA byte of START
(30_encoding.md R71, R72, R82), and the divisor INIT programs (41_initialize.md R130). -/

namespace Sys2Proof

/-- The direction bit: 0 is write, 1 is read (R32, R82). -/
def Direction.bit : Direction → BitVec 1
  | .write => 0
  | .read => 1

/-- The direction a direction bit names (R82). -/
def Direction.ofBit (b : BitVec 1) : Direction :=
  if b = 0 then .write else .read

namespace Machine

/-- The SLA byte `(slaveAddress << 1) | directionBit`, which is START's operand itself (R72). -/
def slaByte (addr : BitVec 7) (dir : Direction) : Byte :=
  addr ++ dir.bit

/-- arg[7:1] of an operand: the 7-bit slave address of START and STOP (R71). -/
def argAddr (arg : Byte) : BitVec 7 :=
  arg.extractLsb' 1 7

/-- arg[0] of an operand: START's direction bit (R71). -/
def argBit0 (arg : Byte) : BitVec 1 :=
  arg.extractLsb' 0 1

/-- DIVISOR = ((F_CPU div F_BUS) - 16) div 2, both divisions floored, the inner one first (R130).
The subtraction does not underflow in a well-formed configuration (R131). -/
def divisor (p : Params) : Nat :=
  (p.fCpu / p.fBus - 16) / 2

/-- The divisor as INIT writes it to the 8-bit BIU.BITRATE; it fits, by R131. -/
def divisorByte (p : Params) : Byte :=
  BitVec.ofNat 8 (divisor p)

/-- The address of a host register in the host's own address space (R51). -/
def hostAddress (p : Params) (off : BitVec 3) : Nat :=
  p.hrBase + off.toNat

end Machine
end Sys2Proof
end

