-- ==== Sys2Proof/WellFormed.lean ====
section
/-! DEFINITION. What a well-formed term is: a configuration (41_initialize.md R131), and an assembler
line (30_encoding.md R76). A command has no ill-formed operand: every value its fields hold is legal
(R71), and the fields are as wide as the encoding. -/

namespace Sys2Proof

/-- A budget is UNBOUNDED or at least one poll (R131, condition 5). -/
def Budget.wellFormed : Budget → Bool
  | .polls n => decide (1 ≤ n)
  | .unbounded => true

/-- The five conditions of R131. -/
def Params.wellFormed (p : Params) : Bool :=
  decide (0 < p.fCpu) && decide (0 < p.fBus) &&
  decide (16 ≤ p.fCpu / p.fBus) &&
  decide (Machine.divisor p ≤ 255) &&
  decide (p.divisorMin < Machine.divisor p) &&
  (decide (1 ≤ p.waitBudget) && p.stopWaitBudget.wellFormed && p.byteWaitBudget.wellFormed)

/-- A configuration with its check: no machine is built for an ill-formed one (R6, R131). -/
structure Config where
  params : Params
  wf : params.wellFormed = true
deriving DecidableEq, Repr

/-- Build a configuration, or refuse an ill-formed one (R131; 93_implementation_defined.md U1). -/
def Config.make? (p : Params) : Option Config :=
  if h : p.wellFormed = true then some ⟨p, h⟩ else none

/-- The default configuration of 95_test_vectors.md section 0. DESIGN CHOICE, log entry 2. -/
def Config.bench : Config := ⟨Params.bench, by decide⟩

/-- An assembler line whose operands are in range; an assembler refuses any other (R76). -/
def AsmLine.wellFormed : AsmLine → Bool
  | .init => true
  | .start addr _ => decide (addr ≤ 0x7F)
  | .write byte => decide (byte ≤ 0xFF)
  | .readNack => true
  | .stop addr => decide (addr ≤ 0x7F)

/-- A command whose ignored operand bits are zero, as the assembler writes them (R76). -/
def Instr.canonical : Instr → Bool
  | .init ignored => decide (ignored = 0)
  | .start _ _ => true
  | .write _ => true
  | .readNack ignored => decide (ignored = 0)
  | .stop _ ignored => decide (ignored = 0)

end Sys2Proof
end

