-- ==== Sys2Proof/Decode.lean ====
section
/-! DEFINITION. The opcode map (30_encoding.md R73), the decoder, total on all 65,536 words and
rejecting reserved opcodes by name (R74, R75), and after it the encoder. -/

namespace Sys2Proof

/-- The opcodes of R73. -/
abbrev Opcode.init : Byte := 0x01
abbrev Opcode.start : Byte := 0x02
abbrev Opcode.write : Byte := 0x03
abbrev Opcode.readNack : Byte := 0x04
abbrev Opcode.stop : Byte := 0x05

/-- Why a command word is no command. -/
inductive Reject where
  /-- The op is none of the five of R73 (R74). -/
  | reservedOpcode (op : Byte)
deriving DecidableEq, Repr

/-- The command an opcode and its operand stand for; the opcode alone selects it (R70, R71, R73). -/
def decode (op arg : Byte) : Except Reject Instr :=
  if op = Opcode.init then .ok (.init arg)
  else if op = Opcode.start then
    .ok (.start (Machine.argAddr arg) (Direction.ofBit (Machine.argBit0 arg)))
  else if op = Opcode.write then .ok (.write arg)
  else if op = Opcode.readNack then .ok (.readNack arg)
  else if op = Opcode.stop then .ok (.stop (Machine.argAddr arg) (Machine.argBit0 arg))
  else .error (.reservedOpcode op)

/-- The command of a command word (R75). -/
def decodeWord (w : Word) : Except Reject Instr :=
  decode w.op w.arg

/-- The opcode byte of a command (R73). -/
def Instr.op : Instr → Byte
  | .init _ => Opcode.init
  | .start _ _ => Opcode.start
  | .write _ => Opcode.write
  | .readNack _ => Opcode.readNack
  | .stop _ _ => Opcode.stop

/-- The operand byte of a command (R71, R72). -/
def Instr.arg : Instr → Byte
  | .init ignored => ignored
  | .start addr dir => Machine.slaByte addr dir
  | .write data => data
  | .readNack ignored => ignored
  | .stop addr ignored => addr ++ ignored

/-- The command word of a command: bits 15:8 the op, bits 7:0 the operand (R70). -/
def encode (i : Instr) : Word :=
  i.op ++ i.arg

/-- The instruction an opcode-table row's bits stand for: the low `nbits` bits of `w`, zeros above,
as one command word. Every command is exactly one 16-bit word (R75), so no longer row is read. -/
def decodeTableWord (nbits w : Nat) : Option Instr :=
  if nbits ≤ 16 then (decodeWord (BitVec.ofNat 16 (w % 2 ^ nbits))).toOption else none

end Sys2Proof
end

