-- ==== Sys2Proof/Machine/State.lean ====
section
/-! DEFINITION. The machine's state, plain data: the host registers, the engine, the BIU and the
bookkeeping of 10_state.md, with the configuration and the agenda of coming events; the state after
reset (70_reset_and_hazards.md R230); and the outcomes a step does not have (R103, R200). -/

namespace Sys2Proof.Machine

/-- ENG.phase, the transaction FSM (R31). -/
inductive Phase where
  | idle
  | started
  | addressSent
  | transferring
  | error
deriving DecidableEq, Repr

/-- ENG.eseq, the sequencer state: which step of which command the engine performs next (R33). -/
inductive Sequencer where
  | sNone
  | sInit
  | sStartTrig
  | sStartPoll1
  | sStartPoll2
  | sWriteTrig
  | sWritePoll
  | sReadTrig
  | sReadPoll
  | sStopTrig
  | sStopPoll
deriving DecidableEq, Repr

/-- The kinds of a trigger in the bus log (R48, R111). -/
inductive TrigKind where
  | start
  | tx
  | rxNack
  | stop
deriving DecidableEq, Repr

/-- An event of the bus log (R48): a trigger with BIU.DATA at that instant, a completion with its
status byte `code << 3` and BIU.DATA, or the completion of a STOP. -/
inductive BusEvent where
  | trig (kind : TrigKind) (data : Byte)
  | done (status data : Byte)
  | stopDone
deriving DecidableEq, Repr

/-- The stored host registers (R21 to R24). HR.ENGSTAT and HR.BITRATE are views of other state
(R25, R26). -/
structure HostRegs where
  cmd : Byte
  arg : Byte
  result : Byte
  rxdata : Byte
deriving DecidableEq, Repr

/-- Engine state (R30 to R35). -/
structure Engine where
  busy : Bool
  phase : Phase
  dir : Direction
  eseq : Sequencer
  cnt : Budget
  opCmd : Byte
  opArg : Byte
deriving DecidableEq, Repr

/-- The BIU's registers and its pending action (R40 to R44). -/
structure Biu where
  ctrl : Byte
  status : Byte
  data : Byte
  bitrate : Byte
  pending : Pending
deriving DecidableEq, Repr

/-- The bookkeeping that exists for claims only (R46 to R49). -/
structure Book where
  violation : Bool
  refused : Bool
  initialized : Bool
  busLog : List BusEvent
  lastStopExpired : Bool
  unsync : Bool
deriving DecidableEq, Repr

/-- The machine state (HR, ENG, BIU, BK) of R100, and three fields of the model's own: the
configuration, which no step changes (log entry 2), the events that come next, and how many free
events have been drawn (log entry 1). -/
structure State where
  hr : HostRegs
  eng : Engine
  biu : Biu
  bk : Book
  cfg : Config
  agenda : List Event
  drawn : Nat
deriving DecidableEq, Repr

/-- The block has no fault outcome: it traps on nothing (R103, R200). No instruction raises one. -/
inductive Fault where
deriving DecidableEq, Repr

/-- Why a step has no meaning in the model. The spec's own refusal (R103) is none of these: it is a
next state in which BK.refused is 1. -/
inductive Refusal where
  /-- Raised by an arm of exec for an instruction that has no meaning yet: no arm raises it. Safe:
  the model stops where the hardware goes on. -/
  | notModelled (mnemonic : String)
deriving DecidableEq, Repr

/-- HR after reset (R21 to R24). -/
def HostRegs.reset : HostRegs where
  cmd := 0x00
  arg := 0x00
  result := 0x00
  rxdata := 0x00

/-- ENG after reset (R30 to R35, R231). -/
def Engine.reset : Engine where
  busy := false
  phase := .idle
  dir := .write
  eseq := .sNone
  cnt := .polls 0
  opCmd := 0x00
  opArg := 0x00

/-- BIU after reset (R40 to R44): the values the spec takes from the AVR TWI, log entry 3. -/
def Biu.reset : Biu where
  ctrl := 0x00
  status := 0xF8
  data := 0xFF
  bitrate := 0x00
  pending := .none

/-- BK after reset (R46 to R49). -/
def Book.reset : Book where
  violation := false
  refused := false
  initialized := false
  busLog := []
  lastStopExpired := false
  unsync := false

/-- The block of configuration `c` right after reset (R230), with nothing on the agenda. -/
def State.resetWith (c : Config) : State where
  hr := .reset
  eng := .reset
  biu := .reset
  bk := .reset
  cfg := c
  agenda := []
  drawn := 0

/-- The machine right after reset, in the default configuration of 95_test_vectors.md section 0.
DESIGN CHOICE, log entry 2: the configuration is OPEN in the spec. -/
def State.reset : State := State.resetWith Config.bench

/-- The state with other host registers. -/
def State.withHr (s : State) (h : HostRegs) : State := { s with hr := h }

/-- The state with another engine state. -/
def State.withEng (s : State) (e : Engine) : State := { s with eng := e }

/-- The state with another BIU state. -/
def State.withBiu (s : State) (b : Biu) : State := { s with biu := b }

/-- The state with other bookkeeping. -/
def State.withBk (s : State) (b : Book) : State := { s with bk := b }

/-- The state with other events on the agenda. -/
def State.withAgenda (s : State) (es : List Event) : State := { s with agenda := es }

/-- The event that comes next: the agenda's first, or a free value where the agenda is empty
(R101, log entry 1). -/
def State.nextEvent (s : State) : Event :=
  match s.agenda with
  | e :: _ => e
  | [] => Config.environment s.drawn

/-- The state once its next event has been taken off the agenda, or drawn. -/
def State.advance (s : State) : State :=
  match s.agenda with
  | _ :: es => { s with agenda := es }
  | [] => { s with drawn := s.drawn + 1 }

end Sys2Proof.Machine
end

