-- ==== Sys2Proof/Machine/Flags.lean ====
section
/-! DEFINITION. Every flag and field the spec gives: the bits of BIU.CTRL (10_state.md R40) and the
trigger values (30_encoding.md R81), BIU.STATUS with its mask and codes (R41, R79, R80), the result codes
(R78), the phase code and HR.ENGSTAT (R25, R31). -/

namespace Sys2Proof.Machine

/-! BIU.CTRL -/

/-- BIU.CTRL.INT, the completion flag: bit 7 (R40). -/
def ctrlInt (c : Byte) : Bool := c.getLsbD 7

/-- BIU.CTRL.EA, the acknowledge bit: bit 6 (R40). -/
def ctrlEa (c : Byte) : Bool := c.getLsbD 6

/-- BIU.CTRL.STA, the start request: bit 5 (R40). -/
def ctrlSta (c : Byte) : Bool := c.getLsbD 5

/-- BIU.CTRL.STO, the stop-pending flag: bit 4 (R40). -/
def ctrlSto (c : Byte) : Bool := c.getLsbD 4

/-- BIU.CTRL.WC, the write-collision flag: bit 3 (R40). -/
def ctrlWc (c : Byte) : Bool := c.getLsbD 3

/-- BIU.CTRL.EN, enable interface: bit 2 (R40). -/
def ctrlEn (c : Byte) : Bool := c.getLsbD 2

/-- BIU.CTRL.IE, interrupt enable: bit 0 (R40). -/
def ctrlIe (c : Byte) : Bool := c.getLsbD 0

/-- BIU.CTRL with INT written (R40). -/
def ctrlWithInt (c : Byte) (v : Bool) : Byte :=
  if v then c ||| 0x80 else c &&& 0x7F

/-- BIU.CTRL with STO written (R40). -/
def ctrlWithSto (c : Byte) (v : Bool) : Byte :=
  if v then c ||| 0x10 else c &&& 0xEF

/-- The value START's trigger writes: INT, STA, EN (R81). -/
def tStart : Byte := 0xA4

/-- The value a transfer trigger writes: INT, EN (R81). -/
def tXfer : Byte := 0x84

/-- The value STOP's trigger writes: INT, STO, EN (R81). -/
def tStop : Byte := 0x94

/-- The action a value written to BIU.CTRL starts (R111). -/
def triggeredAction (v : Byte) : Pending :=
  if ctrlSta v then .start else if ctrlSto v then .stop else .xfer

/-! BIU.STATUS -/

/-- STATUS_MASK: what is left after masking away the prescaler bits (R6, R41). -/
def statusMask : Byte := 0xF8

/-- The status the engine reads: BIU.STATUS & STATUS_MASK (R41). -/
def maskedStatus (status : Byte) : Byte := status &&& statusMask

/-- BIU.STATUS with CODE, bits 7:3, written; bits 2:0 stay (R41, R112). -/
def statusWithCode (status : Byte) (code : BitVec 5) : Byte :=
  code ++ status.extractLsb' 0 3

/-- BIU.STATUS with PS, bits 1:0, cleared (R41, R132). -/
def statusWithoutPrescaler (status : Byte) : Byte := status &&& 0xFC

/-- A 5-bit status code as the byte `code << 3` the log holds (R112). -/
def codeByte (code : BitVec 5) : Byte := code ++ (0 : BitVec 3)

/-- The status codes of R79. -/
abbrev Status.start : Byte := 0x08
abbrev Status.repStart : Byte := 0x10
abbrev Status.slawAck : Byte := 0x18
abbrev Status.slawNack : Byte := 0x20
abbrev Status.dataAck : Byte := 0x28
abbrev Status.dataNack : Byte := 0x30
abbrev Status.arbLost : Byte := 0x38
abbrev Status.slarAck : Byte := 0x40
abbrev Status.slarNack : Byte := 0x48
abbrev Status.rxAck : Byte := 0x50
abbrev Status.rxNack : Byte := 0x58
abbrev Status.noState : Byte := 0xF8
abbrev Status.busError : Byte := 0x00

/-- The model's enumeration of R80: the five used values of R79, and any other raw code. -/
inductive StatusCode where
  | start
  | repStart
  | slawAck
  | dataAck
  | slarAck
  | other (s : Byte)
deriving DecidableEq, Repr

/-- The enumerated status of a masked status byte (R79, R80). -/
def classify (s : Byte) : StatusCode :=
  if s = Status.start then .start
  else if s = Status.repStart then .repStart
  else if s = Status.slawAck then .slawAck
  else if s = Status.dataAck then .dataAck
  else if s = Status.slarAck then .slarAck
  else .other s

/-- The check after START: START or repeated START (R80, R142). -/
def startConfirmed (status : Byte) : Bool :=
  match classify (maskedStatus status) with
  | .start => true
  | .repStart => true
  | .slawAck | .dataAck | .slarAck | .other _ => false

/-- The status that acknowledges an address in a direction (R80, R143). -/
def addressAck : Direction → StatusCode
  | .write => .slawAck
  | .read => .slarAck

/-- The check after the address frame (R80, R143). -/
def addressAcked (dir : Direction) (status : Byte) : Bool :=
  decide (classify (maskedStatus status) = addressAck dir)

/-- The check after a data byte (R80, R162). -/
def dataAcked (status : Byte) : Bool :=
  decide (classify (maskedStatus status) = .dataAck)

/-! Results, phases and HR.ENGSTAT -/

/-- The outcomes a command reports (R78). -/
inductive ResultCode where
  | ok
  | startTimeout
  | startBadStatus
  | addrTimeout
  | addrNack
  | dataNack
  | dataTimeout
  | readTimeout
  | illegalCmd
deriving DecidableEq, Repr

/-- The value of HR.RESULT that reports an outcome (R78). -/
def ResultCode.byte : ResultCode → Byte
  | .ok => 0x00
  | .startTimeout => 0x01
  | .startBadStatus => 0x02
  | .addrTimeout => 0x03
  | .addrNack => 0x04
  | .dataNack => 0x05
  | .dataTimeout => 0x06
  | .readTimeout => 0x07
  | .illegalCmd => 0xFF

/-- The 3-bit code of a phase (R31). -/
def Phase.code : Phase → BitVec 3
  | .idle => 0
  | .started => 1
  | .addressSent => 2
  | .transferring => 3
  | .error => 4

/-- HR.ENGSTAT: reserved 7:5 zero, DIR 4, PHASE 3:1, BUSY 0 (R25). -/
def engstat (e : Engine) : Byte :=
  (0 : BitVec 3) ++ e.dir.bit ++ e.phase.code ++ BitVec.ofBool e.busy

/-- The command a sequencer state belongs to, by its opcode: the command column of R33. -/
def Sequencer.opcode : Sequencer → Option Byte
  | .sNone => none
  | .sInit => some Opcode.init
  | .sStartTrig | .sStartPoll1 | .sStartPoll2 => some Opcode.start
  | .sWriteTrig | .sWritePoll => some Opcode.write
  | .sReadTrig | .sReadPoll => some Opcode.readNack
  | .sStopTrig | .sStopPoll => some Opcode.stop

/-- A sequencer state in which the engine polls (R107). -/
def Sequencer.isPoll : Sequencer → Bool
  | .sStartPoll1 | .sStartPoll2 | .sWritePoll | .sReadPoll | .sStopPoll => true
  | .sNone | .sInit | .sStartTrig | .sWriteTrig | .sReadTrig | .sStopTrig => false

/-- The sequencer state in which an accepted command begins (R104). -/
def firstStep : Instr → Sequencer
  | .init _ => .sInit
  | .start _ _ => .sStartTrig
  | .write _ => .sWriteTrig
  | .readNack _ => .sReadTrig
  | .stop _ _ => .sStopTrig

end Sys2Proof.Machine
end

