-- ==== Sys2Proof/Machine/Ops.lean ====
section
/-! DEFINITION. The named operations over the state that the commands share: host accesses
(20_memory.md), command issue and acceptance, finish, the trigger, the timeout guard, the BIU's steps
(40_engine_and_timeout_guard.md), the contract check (60_exceptions.md R210), reset (R230), and which
command the engine is running. -/

namespace Sys2Proof.Machine

/-! Host reads and refusals -/

/-- HostRead: the value of the register at an offset; a read changes no state (R50, R56, R58). -/
def hostRead (off : BitVec 3) (s : State) : Byte :=
  if off = 0 then s.hr.cmd
  else if off = 1 then s.hr.arg
  else if off = 2 then s.hr.result
  else if off = 3 then s.hr.rxdata
  else if off = 4 then engstat s.eng
  else if off = 5 then s.biu.bitrate
  else 0x00

/-- The spec's refusal: BK.refused is set and the rest of the state is unchanged (R103). -/
def refuse (s : State) : State :=
  s.withBk { s.bk with refused := true }

/-! Command issue, acceptance and completion -/

/-- Whether a command is within the caller contract (R210). -/
def inContract (i : Instr) (phase : Phase) (dir : Direction) (initialized : Bool) : Bool :=
  match i with
  | .init _ => true
  | .start _ _ => decide (phase ≠ .error) && initialized
  | .write _ =>
    (decide (phase = .addressSent) || decide (phase = .transferring)) && decide (dir = .write)
  | .readNack _ => decide (phase = .addressSent) && decide (dir = .read)
  | .stop _ _ => true

/-- The contract check: it may set BK.violation and changes nothing else (R210, R211). -/
def contractCheck (i : Instr) (s : State) : State :=
  if inContract i s.eng.phase s.eng.dir s.bk.initialized then s
  else s.withBk { s.bk with violation := true }

/-- Acceptance of command `i` issued as `c`: the contract check, then the command word is latched and
the engine becomes busy at the command's first step (R104). -/
def accept (c : Byte) (i : Instr) (s : State) : State :=
  let s := contractCheck i s
  s.withEng { s.eng with opCmd := c, opArg := s.hr.arg, busy := true, eseq := firstStep i }

/-- Command issue while idle: HR.CMD takes the value; a reserved op is rejected with ILLEGAL_CMD, a
command is accepted (R21, R74, R104). -/
def issueIdle (c : Byte) (s : State) : State :=
  let s := s.withHr { s.hr with cmd := c }
  match decode c s.hr.arg with
  | .error _ => s.withHr { s.hr with result := ResultCode.illegalCmd.byte }
  | .ok i => accept c i s

/-- HostWrite: the CMD write issues a command, or is refused while busy (R104, R105); the ARG write
stores the byte (R22); every other write is ignored (R27, R57, R58). -/
def hostWrite (off : BitVec 3) (v : Byte) (s : State) : State :=
  if off = 0 then (if s.eng.busy then refuse s else issueIdle v s)
  else if off = 1 then s.withHr { s.hr with arg := v }
  else s

/-- One host step: an 8-bit read or write, or an access of another width, which is refused
(R53, R101, R103). -/
def hostStep (a : HostAccess) (s : State) : State :=
  if a.width = 8 then
    match a.op with
    | .read => s
    | .write v => hostWrite a.off v s
  else refuse s

/-- Issue of a whole command word: ARG, then CMD (R76, R241). -/
def issue (i : Instr) (s : State) : State :=
  hostWrite 0 i.op (hostWrite 1 i.arg s)

/-- finish(r, p): the command ends with result `r`, in phase `p` or, with `none` for `keep`, in the
phase it had (R106). -/
def finish (r : ResultCode) (p : Option Phase) (s : State) : State :=
  (s.withHr { s.hr with result := r.byte }).withEng
    { s.eng with phase := p.getD s.eng.phase, busy := false, eseq := .sNone }

/-- Every failure of a running command: a result code and phase Error in one step. It stands where
another machine would take an exception (R200, R202). -/
def fail (r : ResultCode) (s : State) : State :=
  finish r (some .error) s

/-! The trigger and the timeout guard -/

/-- biu_trigger(v, kind): a trigger over an outstanding action sets BK.unsync; BIU.CTRL takes `v`
with INT forced to 0; the action `v` starts becomes the pending one; the log gains the trigger with
BIU.DATA (R111). -/
def biuTrigger (v : Byte) (kind : TrigKind) (s : State) : State :=
  (s.withBiu { s.biu with ctrl := ctrlWithInt v false, pending := triggeredAction v }).withBk
    { s.bk with
      unsync := s.bk.unsync || decide (s.biu.pending ≠ .none)
      busLog := s.bk.busLog ++ [.trig kind s.biu.data] }

/-- What a trigger step ends with: the budget of the wait that follows, and its poll state
(R34, R115). -/
def beginWait (b : Budget) (q : Sequencer) (s : State) : State :=
  s.withEng { s.eng with cnt := b, eseq := q }

/-- One poll less; UNBOUNDED is never decremented (R34, R115). -/
def Budget.less : Budget → Budget
  | .polls n => .polls (n - 1)
  | .unbounded => .unbounded

/-- One poll of a bounded wait: `flag` is the awaited flag as this poll reads it (R115). -/
def pollBounded (flag : Bool) (onOk onTimeout : State → State) (s : State) : State :=
  if flag then onOk s
  else
    let t := s.withEng { s.eng with cnt := Budget.less s.eng.cnt }
    if t.eng.cnt = .polls 0 then onTimeout t else t

/-- One poll of an unbounded wait: without the flag it spins, and nothing changes (R116). -/
def pollUnbounded (flag : Bool) (onOk : State → State) (s : State) : State :=
  if flag then onOk s else s

/-- One poll of a wait whose budget is a parameter that may be UNBOUNDED (R162, R166, R182). -/
def pollWithin (b : Budget) (flag : Bool) (onOk onTimeout : State → State) (s : State) : State :=
  match b with
  | .unbounded => pollUnbounded flag onOk s
  | .polls _ => pollBounded flag onOk onTimeout s

/-! The BIU's steps -/

/-- Completion of a START or transfer action: the status code is drawn, a transfer also draws
BIU.DATA, INT is set, nothing is outstanding any more (R112). -/
def actionCompletes (d : BiuDraw) (s : State) : State :=
  let data := if s.biu.pending = .xfer then d.data else s.biu.data
  (s.withBiu { s.biu with
      status := statusWithCode s.biu.status d.code
      data := data
      ctrl := ctrlWithInt s.biu.ctrl true
      pending := .none }).withBk
    { s.bk with busLog := s.bk.busLog ++ [.done (codeByte d.code) data] }

/-- Completion of a STOP action: STO is cleared and INT is not set (R113). -/
def stopCompletes (s : State) : State :=
  (s.withBiu { s.biu with ctrl := ctrlWithSto s.biu.ctrl false, pending := .none }).withBk
    { s.bk with busLog := s.bk.busLog ++ [.stopDone] }

/-- The log entry an unsynchronised completion appends (R114). -/
def Completion.event : Completion → BusEvent
  | .done code data => .done (codeByte code) data
  | .stopDone => .stopDone

/-- A step of the unsynchronised BIU: any draws to INT, STO, the status code, BIU.DATA and the pending
action, and any completion event or none (R114). -/
def biuUnsync (d : BiuDraw) (s : State) : State :=
  (s.withBiu { s.biu with
      ctrl := ctrlWithSto (ctrlWithInt s.biu.ctrl d.int) d.sto
      status := statusWithCode s.biu.status d.code
      data := d.data
      pending := d.pending }).withBk
    { s.bk with busLog := s.bk.busLog ++ (d.append.map Completion.event).toList }

/-- One BIU step. Where none is enabled, nothing happens (R101, R112, R113, R114). -/
def biuStep (d : BiuDraw) (s : State) : State :=
  if s.bk.unsync then biuUnsync d s
  else
    match s.biu.pending with
    | .none => s
    | .start => actionCompletes d s
    | .xfer => actionCompletes d s
    | .stop => stopCompletes s

/-! Reset, and the command the engine is running -/

/-- Power-on reset: every field of 10_state.md takes its reset value; a running command is abandoned
(R230). The configuration and the coming events are no state of the block. -/
def powerOnReset (s : State) : State :=
  { State.resetWith s.cfg with agenda := s.agenda, drawn := s.drawn }

/-- The command the engine is running: the one its sequencer state belongs to (R33, R107), with the
latched operand (R35). The engine fetches nothing else (R64). -/
def runningInstr (s : State) : Option Instr :=
  match s.eng.eseq.opcode with
  | none => none
  | some op => (decode op s.eng.opArg).toOption

end Sys2Proof.Machine
end

