-- ==== Sys2Proof/Machine/ByteTransfer.lean ====
section
/-! DEFINITION. WRITE and READ_NACK (43_byte_transfer.md R160 to R168). -/

namespace Sys2Proof.Machine

/-- WRITE step 1: the data byte to BIU.DATA, transmission triggered, the wait begins (R161). -/
def writeTrigger (data : Byte) (s : State) : State :=
  let s := s.withBiu { s.biu with data := data }
  beginWait s.cfg.params.byteWaitBudget .sWritePoll (biuTrigger tXfer .tx s)

/-- WRITE step 2: the wait and the acknowledge check (R162). -/
def writePoll (s : State) : State :=
  pollWithin s.cfg.params.byteWaitBudget (ctrlInt s.biu.ctrl)
    (fun s => if dataAcked s.biu.status then finish .ok (some .transferring) s
      else fail .dataNack s)
    (fail .dataTimeout) s

/-- WRITE: the engine step its sequencer state names (R107, R161, R162), and otherwise its issue by
the host (R76, R104, R105). -/
def execWrite (data : Byte) (s : State) : Host.Outcome State Fault Refusal :=
  match s.eng.eseq with
  | .sWriteTrig => .next (writeTrigger data s)
  | .sWritePoll => .next (writePoll s)
  | _ => .next (issue (.write data) s)

/-- READ_NACK step 1: a receive without acknowledge is triggered, the wait begins (R165). -/
def readTrigger (s : State) : State :=
  beginWait s.cfg.params.byteWaitBudget .sReadPoll (biuTrigger tXfer .rxNack s)

/-- READ_NACK step 2: the wait, then the received byte to HR.RXDATA; the status is not read
(R164, R166). -/
def readPoll (s : State) : State :=
  pollWithin s.cfg.params.byteWaitBudget (ctrlInt s.biu.ctrl)
    (fun s => finish .ok (some .transferring) (s.withHr { s.hr with rxdata := s.biu.data }))
    (fail .readTimeout) s

/-- READ_NACK: the engine step its sequencer state names (R107, R165, R166), and otherwise its issue
by the host (R76, R104, R105). -/
def execReadNack (ignored : Byte) (s : State) : Host.Outcome State Fault Refusal :=
  match s.eng.eseq with
  | .sReadTrig => .next (readTrigger s)
  | .sReadPoll => .next (readPoll s)
  | _ => .next (issue (.readNack ignored) s)

end Sys2Proof.Machine
end

