-- ==== Sys2Proof/Machine/Init.lean ====
section
/-! DEFINITION. INIT (41_initialize.md R130 to R134). -/

namespace Sys2Proof.Machine

/-- INIT's single engine step: no prescale, the divisor programmed, finish with OK and the phase kept
(R132). -/
def initStep (s : State) : State :=
  finish .ok none
    ((s.withBiu { s.biu with
        status := statusWithoutPrescaler s.biu.status
        bitrate := divisorByte s.cfg.params }).withBk
      { s.bk with initialized := true })

/-- INIT: its engine step where the sequencer stands at it (R107, R132), and otherwise its issue by
the host (R76, R104, R105). -/
def execInit (ignored : Byte) (s : State) : Host.Outcome State Fault Refusal :=
  match s.eng.eseq with
  | .sInit => .next (initStep s)
  | _ => .next (issue (.init ignored) s)

end Sys2Proof.Machine
end

