-- ==== Sys2Proof/Machine/Start.lean ====
section
/-! DEFINITION. START (42_start.md R140 to R147). -/

namespace Sys2Proof.Machine

/-- START step 1: the direction is taken from the operand, the START condition is triggered, the first
wait begins (R141). -/
def startTrigger (dir : Direction) (s : State) : State :=
  beginWait (.polls s.cfg.params.waitBudget) .sStartPoll1
    (biuTrigger tStart .start (s.withEng { s.eng with dir := dir }))

/-- START's address frame: phase Started, the SLA byte to BIU.DATA, transmission triggered, a fresh
budget (R142). -/
def sendAddress (addr : BitVec 7) (dir : Direction) (s : State) : State :=
  let s := s.withEng { s.eng with phase := .started }
  let s := s.withBiu { s.biu with data := slaByte addr dir }
  beginWait (.polls s.cfg.params.waitBudget) .sStartPoll2 (biuTrigger tXfer .tx s)

/-- START step 2: the first wait, the status check, the address frame (R142). -/
def startPoll1 (addr : BitVec 7) (dir : Direction) (s : State) : State :=
  pollBounded (ctrlInt s.biu.ctrl)
    (fun s => if startConfirmed s.biu.status then sendAddress addr dir s
      else fail .startBadStatus s)
    (fail .startTimeout) s

/-- START step 3: the second wait and the acknowledge check for the direction (R143). -/
def startPoll2 (s : State) : State :=
  pollBounded (ctrlInt s.biu.ctrl)
    (fun s => if addressAcked s.eng.dir s.biu.status then finish .ok (some .addressSent) s
      else fail .addrNack s)
    (fail .addrTimeout) s

/-- START: the engine step its sequencer state names (R107, R141 to R143), and otherwise its issue by
the host (R76, R104, R105). -/
def execStart (addr : BitVec 7) (dir : Direction) (s : State) : Host.Outcome State Fault Refusal :=
  match s.eng.eseq with
  | .sStartTrig => .next (startTrigger dir s)
  | .sStartPoll1 => .next (startPoll1 addr dir s)
  | .sStartPoll2 => .next (startPoll2 s)
  | _ => .next (issue (.start addr dir) s)

end Sys2Proof.Machine
end

