-- ==== Sys2Proof/Machine/Stop.lean ====
section
/-! DEFINITION. STOP (44_stop.md R180 to R185). -/

namespace Sys2Proof.Machine

/-- STOP step 1: the STOP condition is triggered, the wait begins (R181). -/
def stopTrigger (s : State) : State :=
  beginWait s.cfg.params.stopWaitBudget .sStopPoll (biuTrigger tStop .stop s)

/-- The end of a STOP: OK and phase Idle either way; the bookkeeping says whether the budget ran out
(R182). -/
def stopEnds (expired : Bool) (s : State) : State :=
  finish .ok (some .idle) (s.withBk { s.bk with lastStopExpired := expired })

/-- STOP step 2: the wait until the stop-pending flag clears (R182). -/
def stopPoll (s : State) : State :=
  pollWithin s.cfg.params.stopWaitBudget (!ctrlSto s.biu.ctrl) (stopEnds false) (stopEnds true) s

/-- STOP: the engine step its sequencer state names (R107, R181, R182), and otherwise its issue by the
host (R76, R104, R105). The address operand is used by no step (R180). -/
def execStop (addr : BitVec 7) (ignored : BitVec 1) (s : State) :
    Host.Outcome State Fault Refusal :=
  match s.eng.eseq with
  | .sStopTrig => .next (stopTrigger s)
  | .sStopPoll => .next (stopPoll s)
  | _ => .next (issue (.stop addr ignored) s)

end Sys2Proof.Machine
end

