-- ==== Sys2Proof/Machine/Dispatch.lean ====
section
/-! DEFINITION. exec: one arm per command, each a call of its meaning (40_engine_and_timeout_guard.md
R107). -/

namespace Sys2Proof.Machine

/-- The next atomic step of a command (R107, R104). -/
def exec (i : Instr) (s : State) : Host.Outcome State Fault Refusal :=
  match i with
  | .init ignored => Sys2Proof.Machine.execInit ignored s
  | .start addr dir => Sys2Proof.Machine.execStart addr dir s
  | .write data => Sys2Proof.Machine.execWrite data s
  | .readNack ignored => Sys2Proof.Machine.execReadNack ignored s
  | .stop addr ignored => Sys2Proof.Machine.execStop addr ignored s

end Sys2Proof.Machine
end

