-- ==== Sys2Proof/Machine/Step.lean ====
section
/-! DEFINITION. One step of the machine: the next event takes effect (40_engine_and_timeout_guard.md
R101, R107), and the placement of an instruction for the very next step. -/

namespace Sys2Proof.Machine

/-- An engine step: enabled exactly when ENG.busy is 1, it runs the command its sequencer state names
(R101, R107). Where none is enabled, nothing happens (log entry 1). -/
def engineStep (s : State) : Host.Outcome State Fault Refusal :=
  if s.eng.busy then
    match runningInstr s with
    | some i => exec i s
    | none => .next s
  else .next s

/-- The effect of an event (R101, R230). -/
def applyEvent (e : Event) (s : State) : Host.Outcome State Fault Refusal :=
  match e with
  | .host a => .next (hostStep a s)
  | .engine => engineStep s
  | .biu d => .next (biuStep d s)
  | .reset => .next (powerOnReset s)

/-- One step: the next event is taken and takes effect (R101). -/
def step (s : State) : Host.Outcome State Fault Refusal :=
  applyEvent s.nextEvent s.advance

/-- `s` with the command word `w` (its low `nbits` bits) placed so that the very next step runs it: a
command stands latched in the engine at its first step, and the engine has the next turn; a reserved
word stands in HR.ARG with the write of its op to HR.CMD as the next event (log entry 5). -/
def State.withFetchWord (s : State) (nbits w : Nat) : State :=
  let word : Word := BitVec.ofNat 16 (w % 2 ^ nbits)
  match decodeWord word with
  | .ok i =>
    (s.withEng { s.eng with
        busy := true, eseq := firstStep i, opCmd := word.op, opArg := word.arg }).withAgenda
      (.engine :: s.agenda)
  | .error _ =>
    ((s.withHr { s.hr with arg := word.arg }).withEng
        { s.eng with busy := false, eseq := .sNone }).withAgenda
      (.hostWrite 0 word.op :: s.agenda)

end Sys2Proof.Machine
end

