-- ==== Sys2Proof/Machine/Assembler.lean ====
section
/-! DEFINITION. The assembler and disassembler of 30_encoding.md R76: a line of text is read as a line of
the assembler, a line is assembled to a command word or refused, a command word is disassembled. -/

namespace Sys2Proof

/-- The command word an assembler line assembles to; an out-of-range operand is refused (R76). -/
def assemble (l : AsmLine) : Option Word :=
  if l.wellFormed then
    match l with
    | .init => some 0x0100
    | .start addr dir => some (0x0200 ||| BitVec.ofNat 16 (addr <<< 1) ||| dir.bit.zeroExtend 16)
    | .write byte => some (0x0300 ||| BitVec.ofNat 16 byte)
    | .readNack => some 0x0400
    | .stop addr => some (0x0500 ||| BitVec.ofNat 16 (addr <<< 1))
  else none

/-- The assembler line of a command (R76). -/
def Instr.line : Instr → AsmLine
  | .init _ => .init
  | .start addr dir => .start addr.toNat dir
  | .write data => .write data.toNat
  | .readNack _ => .readNack
  | .stop addr _ => .stop addr.toNat

/-- The disassembly of a command word (R76). -/
def disassemble (w : Word) : Disassembly :=
  match decodeWord w with
  | .ok i => .line i.line
  | .error (.reservedOpcode op) => .illegal op

/-- One hexadecimal digit. -/
def hexDigit (n : Nat) : Char :=
  if n < 10 then Char.ofNat (48 + n) else Char.ofNat (55 + n)

/-- A byte as `0xNN`. -/
def hexByte (n : Nat) : String :=
  "0x" ++ String.ofList [hexDigit (n / 16 % 16), hexDigit (n % 16)]

/-- The text of an assembler line (R76). -/
def AsmLine.text : AsmLine → String
  | .init => "INIT"
  | .start addr .write => "START " ++ hexByte addr ++ ", W"
  | .start addr .read => "START " ++ hexByte addr ++ ", R"
  | .write byte => "WRITE " ++ hexByte byte
  | .readNack => "READNACK"
  | .stop addr => "STOP " ++ hexByte addr

/-- The text of a disassembly, `.illegal 0xNN` for a reserved op (R76). -/
def Disassembly.text : Disassembly → String
  | .line l => l.text
  | .illegal op => ".illegal " ++ hexByte op.toNat

/-- The value of a digit in base 16; letters in either case. -/
def digitValue (c : Char) : Option Nat :=
  let n := c.toNat
  if 48 ≤ n ∧ n ≤ 57 then some (n - 48)
  else if 65 ≤ n ∧ n ≤ 70 then some (n - 55)
  else if 97 ≤ n ∧ n ≤ 102 then some (n - 87)
  else none

/-- The number written by a list of digits in a base, added to what stands before them. -/
def readDigits (base : Nat) : Nat → List Char → Option Nat
  | acc, [] => some acc
  | acc, c :: cs =>
    match digitValue c with
    | some d => if d < base then readDigits base (acc * base + d) cs else none
    | none => none

/-- A number, decimal or with the prefix `0x` hexadecimal (R76). -/
def readNumber : List Char → Option Nat
  | [] => none
  | '0' :: 'x' :: c :: cs => readDigits 16 0 (c :: cs)
  | cs => readDigits 10 0 cs

/-- Split a line into words: blanks separate words, a comma is a word of its own, and a semicolon
starts a comment. `word` is the word being read, backwards. DESIGN CHOICE, log entry 14. -/
def splitWords : List Char → List Char → List (List Char)
  | word, [] => closeWord word []
  | word, c :: cs =>
    if c = ';' then closeWord word []
    else if c = ' ' then closeWord word (splitWords [] cs)
    else if c = ',' then closeWord word ([','] :: splitWords [] cs)
    else splitWords (c :: word) cs
where
  closeWord (word : List Char) (rest : List (List Char)) : List (List Char) :=
    if word = [] then rest else word.reverse :: rest

/-- The letter of a direction: `W` is write, `R` is read (R76). -/
def readDirection : List Char → Option Direction
  | ['W'] => some .write
  | ['R'] => some .read
  | _ => none

/-- Read one line of the assembler syntax; anything else is refused (R76). -/
def parseLine (text : List Char) : Option AsmLine :=
  match splitWords [] text with
  | [m] =>
    if m = ['I', 'N', 'I', 'T'] then some .init
    else if m = ['R', 'E', 'A', 'D', 'N', 'A', 'C', 'K'] then some .readNack
    else none
  | [m, n] =>
    if m = ['W', 'R', 'I', 'T', 'E'] then (readNumber n).map .write
    else if m = ['S', 'T', 'O', 'P'] then (readNumber n).map .stop
    else none
  | [m, n, [','], d] =>
    if m = ['S', 'T', 'A', 'R', 'T'] then
      (readNumber n).bind fun a => (readDirection d).map fun dir => .start a dir
    else none
  | _ => none

end Sys2Proof
end

