-- ==== Sys2Proof/Safety.lean ====
section
/-! DEFINITION. The terms claims use: the invariant of every reachable state
(40_engine_and_timeout_guard.md R119, with what makes it inductive), what a run in contract and a
released bus are, runs over a given agenda, the named environment premises of R118, fairness (R101), and
the end of a host program's run (R120). -/

namespace Sys2Proof.Machine

/-! What claims take as premises or conclude -/

/-- The premise every claim about a transaction takes: no command out of contract, no access refused
(R46, R211). -/
def InContract (s : State) : Prop :=
  s.bk.violation = false ∧ s.bk.refused = false

/-- The condition under which a STOP that ended has released the bus (R185). -/
def BusReleased (s : State) : Prop :=
  s.bk.lastStopExpired = false ∧ s.bk.unsync = false

/-- The block is idle in phase Idle with no BIU action outstanding, as it is after reset (R231). -/
def Quiescent (s : State) : Prop :=
  s.eng.busy = false ∧ s.eng.phase = .idle ∧ s.biu.pending = .none

/-- The contract check as R210 tables it, by opcode: whether a command issued as `c` in state `s` is
within the caller contract. -/
def contractOk (c : Byte) (s : State) : Bool :=
  if c = 0x02 then decide (s.eng.phase ≠ .error) && s.bk.initialized
  else if c = 0x03 then
    (decide (s.eng.phase = .addressSent) || decide (s.eng.phase = .transferring)) &&
      decide (s.eng.dir = .write)
  else if c = 0x04 then decide (s.eng.phase = .addressSent) && decide (s.eng.dir = .read)
  else true

/-! The invariant -/

/-- A counter loaded from budget `b` whose wait is not over: 1 ≤ cnt ≤ b, or both UNBOUNDED
(R34, R119 (d)). -/
def Live : Budget → Budget → Prop
  | .polls b, .polls n => 1 ≤ n ∧ n ≤ b
  | .unbounded, .unbounded => True
  | .polls _, .unbounded => False
  | .unbounded, .polls _ => False

/-- The budget of the wait a poll state performs (R117). -/
def waitBudgetOf (c : Config) : Sequencer → Option Budget
  | .sStartPoll1 | .sStartPoll2 => some (.polls c.params.waitBudget)
  | .sWritePoll | .sReadPoll => some c.params.byteWaitBudget
  | .sStopPoll => some c.params.stopWaitBudget
  | .sNone | .sInit | .sStartTrig | .sWriteTrig | .sReadTrig | .sStopTrig => none

/-- The pending action after one more log event, where triggers and completions alternate: a START or
a transfer is completed by Done, a STOP by StopDone (R111, R112, R113). -/
def replayEvent : Pending → BusEvent → Option Pending
  | .none, .trig .start _ => some .start
  | .none, .trig .tx _ => some .xfer
  | .none, .trig .rxNack _ => some .xfer
  | .none, .trig .stop _ => some .stop
  | .none, .done _ _ => Option.none
  | .none, .stopDone => Option.none
  | .start, .done _ _ => some .none
  | .start, .trig _ _ => Option.none
  | .start, .stopDone => Option.none
  | .xfer, .done _ _ => some .none
  | .xfer, .trig _ _ => Option.none
  | .xfer, .stopDone => Option.none
  | .stop, .stopDone => some .none
  | .stop, .trig _ _ => Option.none
  | .stop, .done _ _ => Option.none

/-- The pending action a bus log replays to from the idle bus, if it alternates triggers with their
own completions. -/
def replay : List BusEvent → Option Pending :=
  List.foldl (fun p e => p.bind (replayEvent · e)) (some .none)

/-- BIU.CTRL, the last log event and the pending action of a synchronised BIU agree
(R111, R112, R113, R119 (e)). -/
def BusAgrees (s : State) : Prop :=
  match s.biu.pending with
  | .start => s.biu.ctrl = 0x24 ∧ s.bk.busLog.getLast? = some (.trig .start s.biu.data)
  | .xfer => s.biu.ctrl = 0x04 ∧
      (s.bk.busLog.getLast? = some (.trig .tx s.biu.data) ∨
        s.bk.busLog.getLast? = some (.trig .rxNack s.biu.data))
  | .stop => s.biu.ctrl = 0x14 ∧ s.bk.busLog.getLast? = some (.trig .stop s.biu.data)
  | .none =>
      (s.biu.ctrl = 0x00 ∧ s.bk.busLog = []) ∨
      ((s.biu.ctrl = 0x84 ∨ s.biu.ctrl = 0xA4) ∧
        s.bk.busLog.getLast? = some (.done s.biu.status s.biu.data)) ∨
      (s.biu.ctrl = 0x04 ∧ s.bk.busLog.getLast? = some .stopDone)

/-- What a synchronised BIU has outstanding, by the engine's step: in a poll state the action the wait
is for, or its completion; elsewhere nothing, unless an earlier wait ran out of budget (R111). -/
def WaitAgrees (s : State) : Prop :=
  match s.eng.eseq with
  | .sStartPoll1 => s.biu.pending = .start ∨ (s.biu.pending = .none ∧ s.biu.ctrl = 0xA4)
  | .sStartPoll2 | .sWritePoll | .sReadPoll =>
      s.biu.pending = .xfer ∨ (s.biu.pending = .none ∧ s.biu.ctrl = 0x84)
  | .sStopPoll => s.biu.pending = .stop ∨ (s.biu.pending = .none ∧ s.biu.ctrl = 0x04)
  | .sNone | .sInit | .sStartTrig | .sWriteTrig | .sReadTrig | .sStopTrig =>
      s.biu.pending = .none ∨ s.eng.phase = .error ∨ s.bk.lastStopExpired = true

/-- What the caller contract gives while a command runs (R210). -/
def ContractHolds (s : State) : Prop :=
  match s.eng.eseq with
  | .sStartTrig | .sStartPoll1 => s.bk.initialized = true ∧ s.eng.phase ≠ .error
  | .sStartPoll2 => s.bk.initialized = true
  | .sWriteTrig | .sWritePoll =>
      (s.eng.phase = .addressSent ∨ s.eng.phase = .transferring) ∧ s.eng.dir = .write
  | .sReadTrig | .sReadPoll => s.eng.phase = .addressSent ∧ s.eng.dir = .read
  | .sNone | .sInit | .sStopTrig | .sStopPoll => True

/-- The invariant of every reachable state: R119 (a) to (f), and what makes it inductive. -/
structure Inv (s : State) : Prop where
  /-- (a): busy exactly when the sequencer names a step. -/
  busy : s.eng.busy = true ↔ s.eng.eseq ≠ .sNone
  /-- (b): phase Started exactly while START waits for its address frame. -/
  started : s.eng.phase = .started ↔ s.eng.eseq = .sStartPoll2
  /-- (c): HR.RESULT is one of the result codes of R78. -/
  result : ∃ r : ResultCode, s.hr.result = r.byte
  /-- (d): in a poll state the counter is live. -/
  budget : ∀ b, waitBudgetOf s.cfg s.eng.eseq = some b → Live b s.eng.cnt
  /-- The latched opcode is that of the running command. -/
  opcode : ∀ op, s.eng.eseq.opcode = some op → s.eng.opCmd = op
  /-- EA, WC, IE and the reserved bit of BIU.CTRL are 0 (R40, R81). -/
  ctrlZeros : s.biu.ctrl &&& 0x4B = 0
  /-- (f): BIU.STATUS[2:0] is 0. -/
  status : s.biu.status &&& 0x07 = 0
  /-- (e), with the bus log and the pending action. -/
  bus : s.bk.unsync = false → BusAgrees s
  /-- The bus log of a synchronised BIU alternates triggers with their completions. -/
  log : s.bk.unsync = false → replay s.bk.busLog = some s.biu.pending
  /-- What is outstanding, by the engine's step. -/
  wait : s.bk.unsync = false → WaitAgrees s
  /-- BIU.BITRATE is DIVISOR once INIT has run, and its reset value before. -/
  rate : s.biu.bitrate = if s.bk.initialized then divisorByte s.cfg.params else 0x00
  /-- A command in contract runs where the contract allows it. -/
  contract : s.bk.violation = false → ContractHolds s
  /-- In contract, no transaction before INIT (R234). -/
  initialized : s.bk.violation = false → s.eng.phase ≠ .idle → s.bk.initialized = true

/-! Runs over a given agenda -/

/-- The run of as many steps as `es` has events, from `s` with exactly `es` on its agenda. -/
def runPlan (s : State) (es : List Event) : Host.Outcome State Fault Refusal :=
  Host.Core.run Sys2Proof.core es.length (s.withAgenda es)

/-- The state after one event, the agenda left as it is. -/
def after (e : Event) (s : State) : State :=
  match applyEvent e s with
  | .next t => t
  | .fault _ => s
  | .refused _ => s

/-- An event that issues a command or tries to: a host write to HR.CMD. -/
def Event.isCmdWrite : Event → Bool
  | .host ⟨w, off, .write _⟩ => decide (w = 8) && decide (off = 0)
  | .host ⟨_, _, .read⟩ => false
  | .engine => false
  | .biu _ => false
  | .reset => false

/-- A BIU step. -/
def Event.isBiu : Event → Bool
  | .biu _ => true
  | .host _ => false
  | .engine => false
  | .reset => false

/-- An engine step. -/
def Event.isEngine : Event → Bool
  | .engine => true
  | .host _ => false
  | .biu _ => false
  | .reset => false

/-- How many engine steps a list of events holds (R7, R250). -/
def engineSteps (es : List Event) : Nat :=
  es.countP Event.isEngine

/-! The named environment premises of R118 -/

/-- SILENT_BIU: the BIU takes no step at all. -/
def SilentBiu (es : List Event) : Prop :=
  ∀ e ∈ es, Event.isBiu e = false

/-- What a trigger puts on the bus. The kind in the log does not tell an SLA byte from a data byte; the
engine step that triggers does (R118). -/
inductive Sent where
  | start
  | sla (b : Byte)
  | data (b : Byte)
  | receive
  | stop
deriving DecidableEq, Repr

/-- The log entry of a trigger, with BIU.DATA as it stood before the step (R111). -/
def Sent.logged (before : Byte) : Sent → BusEvent
  | .start => .trig .start before
  | .sla b => .trig .tx b
  | .data b => .trig .tx b
  | .receive => .trig .rxNack before
  | .stop => .trig .stop before

/-- What the engine's step puts on the bus, if it triggers: each trigger step does, and START's first
poll when it sends the address frame (R141, R142, R161, R165, R181). -/
def triggers? (s : State) : Option Sent :=
  if s.eng.busy then
    match s.eng.eseq with
    | .sStartTrig => some .start
    | .sStartPoll1 =>
      if ctrlInt s.biu.ctrl && startConfirmed s.biu.status then some (.sla s.eng.opArg) else none
    | .sWriteTrig => some (.data s.eng.opArg)
    | .sReadTrig => some .receive
    | .sStopTrig => some .stop
    | .sNone | .sInit | .sStartPoll2 | .sWritePoll | .sReadPoll | .sStopPoll => none
  else none

/-- An engine step that polls (R115, R116). -/
def polls (s : State) : Bool :=
  s.eng.busy && s.eng.eseq.isPoll

/-- The BIU's completion step, of R112 or R113. A step of the unsynchronised BIU is none, since there
those rules no longer apply (R114). -/
def completes (s : State) : Event → Bool
  | .biu _ => !s.bk.unsync && decide (s.biu.pending ≠ .none)
  | .host _ => false
  | .engine => false
  | .reset => false

/-- The status code of the Done event that `e` appends to the log, if it appends one: the code a START
or transfer completion draws (R112), or the code of an event the unsynchronised BIU appends (R114; that
this too is a completion of R118 is a DESIGN CHOICE, log entry 16). -/
def doneCode? (s : State) : Event → Option Byte
  | .biu d =>
    if s.bk.unsync then
      match d.append with
      | some (.done code _) => some (codeByte code)
      | some .stopDone => none
      | none => none
    else
      match s.biu.pending with
      | .start => some (codeByte d.code)
      | .xfer => some (codeByte d.code)
      | .stop => none
      | .none => none
  | .host _ => none
  | .engine => none
  | .reset => none

/-- What the premises of R118 remember along a run: what the last trigger put on the bus, whether its
completion step has been taken, and how many polls followed it. It is no state of the machine. -/
structure Watch where
  sent : Option Sent
  answered : Bool
  polled : Nat
deriving DecidableEq, Repr

/-- No trigger seen: where a run begins with no wait in progress, and after a reset. -/
def Watch.fresh : Watch := ⟨none, true, 0⟩

/-- What is remembered after event `e` in state `s`. -/
def Watch.next (w : Watch) (s : State) : Event → Watch
  | .engine =>
    match triggers? s with
    | some x => ⟨some x, false, 0⟩
    | none => if polls s then { w with polled := w.polled + 1 } else w
  | .biu d => if completes s (.biu d) then { w with answered := true } else w
  | .host _ => w
  | .reset => .fresh

/-- `Q` holds of every event along `es` from `s`, with what is remembered and the state before it. -/
def Along (Q : Watch → State → Event → Prop) : Watch → State → List Event → Prop
  | _, _, [] => True
  | w, s, e :: es => Q w s e ∧ Along Q (w.next s e) (after e s) es

/-- RESPONSIVE(b) along `es` from `s`, where no wait is in progress: when the engine takes its b-th
poll of a wait, the completion step of the trigger before it has been taken (R118). DESIGN CHOICE, log
entry 17: a wait that ends before its b-th poll meets the premise. -/
def Responsive (b : Nat) (s : State) (es : List Event) : Prop :=
  Along (fun w s e => e = .engine → polls s = true → b ≤ w.polled + 1 → w.answered = true)
    .fresh s es

/-- A completion as ACK_SLAVE(a) draws it, for what was sent (R118). -/
def ackDraw (a : BitVec 7) (sent : Option Sent) (code : Byte) : Prop :=
  (sent = some .start → code = Status.start ∨ code = Status.repStart) ∧
  (sent = some (.sla (slaByte a .write)) → code = Status.slawAck) ∧
  (sent = some (.sla (slaByte a .read)) → code = Status.slarAck) ∧
  (∀ b, sent = some (.data b) → code = Status.dataAck)

/-- A completion as ABSENT_SLAVE(a) draws it, for what was sent (R118). -/
def absentDraw (a : BitVec 7) (sent : Option Sent) (code : Byte) : Prop :=
  (sent = some (.sla (slaByte a .write)) → code = Status.slawNack) ∧
  (sent = some (.sla (slaByte a .read)) → code = Status.slarNack)

/-- Every completion along `es` from `s`, where no action is outstanding, draws as `P` says for what
the last trigger sent. -/
def Draws (P : Option Sent → Byte → Prop) (s : State) (es : List Event) : Prop :=
  Along (fun w s e => ∀ code, doneCode? s e = some code → P w.sent code) .fresh s es

/-- ACK_SLAVE(a) along `es` from `s` (R118). -/
def AckSlave (a : BitVec 7) (s : State) (es : List Event) : Prop :=
  Draws (ackDraw a) s es

/-- ABSENT_SLAVE(a) along `es` from `s` (R118). -/
def AbsentSlave (a : BitVec 7) (s : State) (es : List Event) : Prop :=
  Draws (absentDraw a) s es

/-! Infinite runs and fairness -/

/-- An infinite run: the states `r` that the interleaving `es` of the agents' steps gives (R101). -/
def InfiniteRun (r : Nat → State) (es : Nat → Event) : Prop :=
  ∀ n, applyEvent (es n) (r n) = .next (r (n + 1))

/-- The engine is weakly fair along a run: if ENG.busy stays 1 from some point on, the engine takes
infinitely many steps (R101). -/
def EngineFair (r : Nat → State) (es : Nat → Event) : Prop :=
  ∀ n, (∀ m, n ≤ m → (r m).eng.busy = true) → ∀ m, n ≤ m → ∃ k, m ≤ k ∧ es k = .engine

/-! Host programs and the end of a run -/

/-- The two host writes that issue a command word (R76). -/
def issueEvents (w : Word) : List Event :=
  [.hostWrite 1 w.arg, .hostWrite 0 w.op]

/-- What the host does next in a program: write ARG, write CMD, or poll BUSY (R76, R240). -/
inductive HostMode where
  | writeArg
  | writeCmd
  | waiting
deriving DecidableEq, Repr

/-- The end state of a host program's run along `es` (R120): the host issues the words one at a time
(R76, R240), and the run ends at the first read of HR.ENGSTAT that returns BUSY = 0 after the last
command was accepted. A CMD write while busy is refused, not accepted (R105), so there is no end state
after it. Reads change nothing (R56) and may stand anywhere else. `none` where the host departs from the
program or the run has not ended.

DESIGN CHOICE, log entry 19, where R120 is silent: a word with a reserved op is rejected and never
accepted (R74), and its part of the run ends all the same at the first read that returns BUSY = 0 after
its CMD write; a run in which a reset occurs has no end state from that reset on. -/
def endState? : List Word → HostMode → State → List Event → Option State
  | _, _, _, [] => none
  | ws, m, s, .host a :: es =>
    match ws, m with
    | [], _ => none
    | w :: _, .writeArg =>
      if a = ⟨8, 1, .write w.arg⟩ then endState? ws .writeCmd (after (.host a) s) es
      else if a = ⟨8, a.off, .read⟩ then endState? ws m s es
      else none
    | w :: _, .writeCmd =>
      if a = ⟨8, 0, .write w.op⟩ then
        if s.eng.busy then none else endState? ws .waiting (after (.host a) s) es
      else if a = ⟨8, a.off, .read⟩ then endState? ws m s es
      else none
    | _ :: rest, .waiting =>
      if a = ⟨8, 4, .read⟩ then
        if s.eng.busy then endState? ws .waiting s es
        else if rest = [] then some s
        else endState? rest .writeArg s es
      else if a = ⟨8, a.off, .read⟩ then endState? ws m s es
      else none
  | ws, m, s, .engine :: es => endState? ws m (after .engine s) es
  | ws, m, s, .biu d :: es => endState? ws m (after (.biu d) s) es
  | _, _, _, .reset :: _ => none

end Sys2Proof.Machine
end

