-- ==== Sys2Proof/Certificates/Slice0/Obligations.lean ====
section
/-! DEFINITION. The statements for the provers, from the numbered rules of spec/: what each engine step
does with its whole next state (its result and its frame), command issue and the other host accesses, the
BIU's steps, reset, the encoding, the invariant of R119 with the whole-machine rules, and the bounds and
outcomes of whole waits over every interleaving. -/

open Sys2Proof Sys2Proof.Machine

/-! The commands' engine steps: each conclusion gives the whole next state -/

/-- R132, R133. INIT's engine step clears the prescaler, programs DIVISOR, and finishes with OK in the
phase it had; nothing else changes, no bus event is logged. -/
def Obligations.InitProgramsDivisor : Prop :=
  ∀ (ignored : Byte) (s : State), s.eng.eseq = .sInit →
    exec (.init ignored) s = .next { s with
      hr := { s.hr with result := 0x00 }
      eng := { s.eng with busy := false, eseq := .sNone }
      biu := { s.biu with
        status := s.biu.status &&& 0xFC
        bitrate := BitVec.ofNat 8 ((s.cfg.params.fCpu / s.cfg.params.fBus - 16) / 2) }
      bk := { s.bk with initialized := true } }

/-- R141 with R111. START's trigger takes the direction, writes T_START, loads WAIT_BUDGET and goes to
the first wait. -/
def Obligations.StartTriggersStartCondition : Prop :=
  ∀ (addr : BitVec 7) (dir : Direction) (s : State), s.eng.eseq = .sStartTrig →
    exec (.start addr dir) s = .next { s with
      eng := { s.eng with
        dir := dir, cnt := .polls s.cfg.params.waitBudget, eseq := .sStartPoll1 }
      biu := { s.biu with ctrl := 0x24, pending := .start }
      bk := { s.bk with
        unsync := s.bk.unsync || decide (s.biu.pending ≠ .none)
        busLog := s.bk.busLog ++ [.trig .start s.biu.data] } }

/-- R142 with R111, R115. START's first poll: a confirmed START condition sends the address frame with a
fresh budget; any other status ends with START_BAD_STATUS; the last poll without the flag ends with
START_TIMEOUT; any other only counts down. -/
def Obligations.StartFirstPoll : Prop :=
  ∀ (addr : BitVec 7) (dir : Direction) (s : State), s.eng.eseq = .sStartPoll1 →
    (s.biu.ctrl.getLsbD 7 = true →
      (s.biu.status &&& 0xF8 = 0x08 ∨ s.biu.status &&& 0xF8 = 0x10) →
      exec (.start addr dir) s = .next { s with
        eng := { s.eng with
          phase := .started, cnt := .polls s.cfg.params.waitBudget, eseq := .sStartPoll2 }
        biu := { s.biu with
          data := addr.zeroExtend 8 <<< 1 ||| dir.bit.zeroExtend 8
          ctrl := 0x04
          pending := .xfer }
        bk := { s.bk with
          unsync := s.bk.unsync || decide (s.biu.pending ≠ .none)
          busLog := s.bk.busLog ++
            [.trig .tx (addr.zeroExtend 8 <<< 1 ||| dir.bit.zeroExtend 8)] } }) ∧
    (s.biu.ctrl.getLsbD 7 = true →
      s.biu.status &&& 0xF8 ≠ 0x08 → s.biu.status &&& 0xF8 ≠ 0x10 →
      exec (.start addr dir) s = .next { s with
        hr := { s.hr with result := 0x02 }
        eng := { s.eng with phase := .error, busy := false, eseq := .sNone } }) ∧
    (s.biu.ctrl.getLsbD 7 = false → s.eng.cnt = .polls 1 →
      exec (.start addr dir) s = .next { s with
        hr := { s.hr with result := 0x01 }
        eng := { s.eng with
          phase := .error, busy := false, eseq := .sNone, cnt := .polls 0 } }) ∧
    (∀ n, s.biu.ctrl.getLsbD 7 = false → s.eng.cnt = .polls (n + 2) →
      exec (.start addr dir) s = .next { s with
        eng := { s.eng with cnt := .polls (n + 1) } })

/-- R143 with R115. START's second poll: the status that acknowledges the address in the engine's
direction completes START with OK in phase AddressSent; any other ends with ADDR_NACK; the last poll
without the flag ends with ADDR_TIMEOUT; any other only counts down. -/
def Obligations.StartSecondPoll : Prop :=
  ∀ (addr : BitVec 7) (dir : Direction) (s : State), s.eng.eseq = .sStartPoll2 →
    (s.biu.ctrl.getLsbD 7 = true →
      s.biu.status &&& 0xF8 = (match s.eng.dir with | .write => 0x18 | .read => 0x40) →
      exec (.start addr dir) s = .next { s with
        hr := { s.hr with result := 0x00 }
        eng := { s.eng with phase := .addressSent, busy := false, eseq := .sNone } }) ∧
    (s.biu.ctrl.getLsbD 7 = true →
      s.biu.status &&& 0xF8 ≠ (match s.eng.dir with | .write => 0x18 | .read => 0x40) →
      exec (.start addr dir) s = .next { s with
        hr := { s.hr with result := 0x04 }
        eng := { s.eng with phase := .error, busy := false, eseq := .sNone } }) ∧
    (s.biu.ctrl.getLsbD 7 = false → s.eng.cnt = .polls 1 →
      exec (.start addr dir) s = .next { s with
        hr := { s.hr with result := 0x03 }
        eng := { s.eng with
          phase := .error, busy := false, eseq := .sNone, cnt := .polls 0 } }) ∧
    (∀ n, s.biu.ctrl.getLsbD 7 = false → s.eng.cnt = .polls (n + 2) →
      exec (.start addr dir) s = .next { s with
        eng := { s.eng with cnt := .polls (n + 1) } })

/-- R161 with R111. WRITE's trigger places the byte in BIU.DATA, writes T_XFER, loads BYTE_WAIT_BUDGET
and goes to its wait. -/
def Obligations.WriteTriggersTransmission : Prop :=
  ∀ (data : Byte) (s : State), s.eng.eseq = .sWriteTrig →
    exec (.write data) s = .next { s with
      eng := { s.eng with cnt := s.cfg.params.byteWaitBudget, eseq := .sWritePoll }
      biu := { s.biu with data := data, ctrl := 0x04, pending := .xfer }
      bk := { s.bk with
        unsync := s.bk.unsync || decide (s.biu.pending ≠ .none)
        busLog := s.bk.busLog ++ [.trig .tx data] } }

/-- R162 with R115, R116. WRITE's poll: status 0x28 completes it with OK in phase Transferring; any other
status ends with DATA_NACK; without the flag the faithful wait spins, and the hardened wait counts down
and ends with DATA_TIMEOUT at its last poll. -/
def Obligations.WritePollOutcomes : Prop :=
  ∀ (data : Byte) (s : State), s.eng.eseq = .sWritePoll →
    (s.biu.ctrl.getLsbD 7 = true → s.biu.status &&& 0xF8 = 0x28 →
      exec (.write data) s = .next { s with
        hr := { s.hr with result := 0x00 }
        eng := { s.eng with phase := .transferring, busy := false, eseq := .sNone } }) ∧
    (s.biu.ctrl.getLsbD 7 = true → s.biu.status &&& 0xF8 ≠ 0x28 →
      exec (.write data) s = .next { s with
        hr := { s.hr with result := 0x05 }
        eng := { s.eng with phase := .error, busy := false, eseq := .sNone } }) ∧
    (s.biu.ctrl.getLsbD 7 = false → s.cfg.params.byteWaitBudget = .unbounded →
      exec (.write data) s = .next s) ∧
    (∀ b, s.biu.ctrl.getLsbD 7 = false → s.cfg.params.byteWaitBudget = .polls b →
      s.eng.cnt = .polls 1 →
      exec (.write data) s = .next { s with
        hr := { s.hr with result := 0x06 }
        eng := { s.eng with
          phase := .error, busy := false, eseq := .sNone, cnt := .polls 0 } }) ∧
    (∀ b n, s.biu.ctrl.getLsbD 7 = false → s.cfg.params.byteWaitBudget = .polls b →
      s.eng.cnt = .polls (n + 2) →
      exec (.write data) s = .next { s with
        eng := { s.eng with cnt := .polls (n + 1) } })

/-- R165 with R111. READ_NACK's trigger writes T_XFER as a receive, leaves BIU.DATA, loads
BYTE_WAIT_BUDGET and goes to its wait. -/
def Obligations.ReadTriggersReceive : Prop :=
  ∀ (ignored : Byte) (s : State), s.eng.eseq = .sReadTrig →
    exec (.readNack ignored) s = .next { s with
      eng := { s.eng with cnt := s.cfg.params.byteWaitBudget, eseq := .sReadPoll }
      biu := { s.biu with ctrl := 0x04, pending := .xfer }
      bk := { s.bk with
        unsync := s.bk.unsync || decide (s.biu.pending ≠ .none)
        busLog := s.bk.busLog ++ [.trig .rxNack s.biu.data] } }

/-- R166 with R115, R116. READ_NACK's poll: the flag, whatever the status, completes it with the received
byte and OK in phase Transferring; without the flag the faithful wait spins, and the hardened wait counts
down and ends with READ_TIMEOUT, HR.RXDATA unchanged, at its last poll. -/
def Obligations.ReadPollOutcomes : Prop :=
  ∀ (ignored : Byte) (s : State), s.eng.eseq = .sReadPoll →
    (s.biu.ctrl.getLsbD 7 = true →
      exec (.readNack ignored) s = .next { s with
        hr := { s.hr with rxdata := s.biu.data, result := 0x00 }
        eng := { s.eng with phase := .transferring, busy := false, eseq := .sNone } }) ∧
    (s.biu.ctrl.getLsbD 7 = false → s.cfg.params.byteWaitBudget = .unbounded →
      exec (.readNack ignored) s = .next s) ∧
    (∀ b, s.biu.ctrl.getLsbD 7 = false → s.cfg.params.byteWaitBudget = .polls b →
      s.eng.cnt = .polls 1 →
      exec (.readNack ignored) s = .next { s with
        hr := { s.hr with result := 0x07 }
        eng := { s.eng with
          phase := .error, busy := false, eseq := .sNone, cnt := .polls 0 } }) ∧
    (∀ b n, s.biu.ctrl.getLsbD 7 = false → s.cfg.params.byteWaitBudget = .polls b →
      s.eng.cnt = .polls (n + 2) →
      exec (.readNack ignored) s = .next { s with
        eng := { s.eng with cnt := .polls (n + 1) } })

/-- R181 with R111. STOP's trigger writes T_STOP, loads STOP_WAIT_BUDGET and goes to its wait. -/
def Obligations.StopTriggersStopCondition : Prop :=
  ∀ (addr : BitVec 7) (ignored : BitVec 1) (s : State), s.eng.eseq = .sStopTrig →
    exec (.stop addr ignored) s = .next { s with
      eng := { s.eng with cnt := s.cfg.params.stopWaitBudget, eseq := .sStopPoll }
      biu := { s.biu with ctrl := 0x14, pending := .stop }
      bk := { s.bk with
        unsync := s.bk.unsync || decide (s.biu.pending ≠ .none)
        busLog := s.bk.busLog ++ [.trig .stop s.biu.data] } }

/-- R182 with R115, R116. STOP's poll: a cleared stop-pending flag ends it with OK in phase Idle and
last_stop_expired 0; the last poll of a bounded wait without that ends it with OK in phase Idle too, and
last_stop_expired 1; an unbounded wait spins; any other poll counts down. -/
def Obligations.StopPollOutcomes : Prop :=
  ∀ (addr : BitVec 7) (ignored : BitVec 1) (s : State), s.eng.eseq = .sStopPoll →
    (s.biu.ctrl.getLsbD 4 = false →
      exec (.stop addr ignored) s = .next { s with
        hr := { s.hr with result := 0x00 }
        eng := { s.eng with phase := .idle, busy := false, eseq := .sNone }
        bk := { s.bk with lastStopExpired := false } }) ∧
    (s.biu.ctrl.getLsbD 4 = true → s.cfg.params.stopWaitBudget = .unbounded →
      exec (.stop addr ignored) s = .next s) ∧
    (∀ b, s.biu.ctrl.getLsbD 4 = true → s.cfg.params.stopWaitBudget = .polls b →
      s.eng.cnt = .polls 1 →
      exec (.stop addr ignored) s = .next { s with
        hr := { s.hr with result := 0x00 }
        eng := { s.eng with phase := .idle, busy := false, eseq := .sNone, cnt := .polls 0 }
        bk := { s.bk with lastStopExpired := true } }) ∧
    (∀ b n, s.biu.ctrl.getLsbD 4 = true → s.cfg.params.stopWaitBudget = .polls b →
      s.eng.cnt = .polls (n + 2) →
      exec (.stop addr ignored) s = .next { s with
        eng := { s.eng with cnt := .polls (n + 1) } })

/-- The model's reading of exec (log entry 4) on R104: a command executed while the engine is idle is
issued by the host as R76 says, ARG then CMD, and so accepted. -/
def Obligations.ExecWhileIdleIssues : Prop :=
  ∀ (i : Instr) (s : State), s.eng.busy = false → s.eng.eseq = .sNone →
    exec i s = .next { s with
      hr := { s.hr with arg := i.arg, cmd := i.op }
      bk := { s.bk with violation := s.bk.violation || !contractOk i.op s }
      eng := { s.eng with
        opCmd := i.op, opArg := i.arg, busy := true
        eseq := match i with
          | .init _ => .sInit
          | .start _ _ => .sStartTrig
          | .write _ => .sWriteTrig
          | .readNack _ => .sReadTrig
          | .stop _ _ => .sStopTrig } }

/-! Steps and host accesses -/

/-- R101, R107. Where the engine has the next turn and is busy, and its sequencer state's command with the
latched operand decodes to `i`, the step is exec of `i`, the event taken off the agenda. -/
def Obligations.StepRunsDecodedCommand : Prop :=
  ∀ (s : State) (op : Byte) (i : Instr), s.nextEvent = .engine → s.eng.busy = true →
    s.eng.eseq.opcode = some op → decode op s.eng.opArg = .ok i →
    step s = exec i s.advance

/-- The model's reading (log entry 1) of an event that R101, R112 to R114 do not enable: an engine step
with ENG.busy = 0, and a BIU step of a synchronised BIU with nothing outstanding, change nothing but the
turn. -/
def Obligations.DisabledStepsChangeNothing : Prop :=
  ∀ (s : State),
    (s.nextEvent = .engine → s.eng.busy = false → step s = .next s.advance) ∧
    (∀ d, s.nextEvent = .biu d → s.bk.unsync = false → s.biu.pending = .none →
      step s = .next s.advance)

/-- R104. A write of one of the five opcodes to HR.CMD while idle is accepted: the contract check, then
the command word is latched and the engine becomes busy at the command's first step. -/
def Obligations.CommandIssueAccepts : Prop :=
  ∀ (s : State) (c : Byte) (q : Sequencer),
    s.nextEvent = .hostWrite 0 c → s.eng.busy = false →
    (c, q) ∈ [((0x01 : Byte), Sequencer.sInit), (0x02, .sStartTrig), (0x03, .sWriteTrig),
      (0x04, .sReadTrig), (0x05, .sStopTrig)] →
    step s = .next { s.advance with
      hr := { s.hr with cmd := c }
      bk := { s.bk with violation := s.bk.violation || !contractOk c s }
      eng := { s.eng with opCmd := c, opArg := s.hr.arg, busy := true, eseq := q } }

/-- R74, R104. A write of a reserved op to HR.CMD while idle is rejected with ILLEGAL_CMD, and nothing
else changes. -/
def Obligations.ReservedOpRejected : Prop :=
  ∀ (s : State) (c : Byte), s.nextEvent = .hostWrite 0 c → s.eng.busy = false →
    c ∉ [(0x01 : Byte), 0x02, 0x03, 0x04, 0x05] →
    step s = .next { s.advance with hr := { s.hr with cmd := c, result := 0xFF } }

/-- R105, R53, R103. A write to HR.CMD while busy, and an access of another width than 8 bits, are
refused: BK.refused is set and nothing else changes. -/
def Obligations.RefusedAccesses : Prop :=
  (∀ (s : State) (c : Byte), s.nextEvent = .hostWrite 0 c → s.eng.busy = true →
    step s = .next { s.advance with bk := { s.bk with refused := true } }) ∧
  (∀ (s : State) (a : HostAccess), s.nextEvent = .host a → a.width ≠ 8 →
    step s = .next { s.advance with bk := { s.bk with refused := true } })

/-- R22, R27, R58. A write to HR.ARG stores the byte, busy or not; a write to any offset above changes
nothing. -/
def Obligations.OtherHostWrites : Prop :=
  (∀ (s : State) (v : Byte), s.nextEvent = .hostWrite 1 v →
    step s = .next { s.advance with hr := { s.hr with arg := v } }) ∧
  (∀ (s : State) (off : BitVec 3) (v : Byte), s.nextEvent = .hostWrite off v →
    2 ≤ off.toNat → step s = .next s.advance)

/-- R50, R56, R58. What a read of each offset returns, and a read changes nothing. -/
def Obligations.HostReads : Prop :=
  (∀ (s : State),
    hostRead 0 s = s.hr.cmd ∧ hostRead 1 s = s.hr.arg ∧ hostRead 2 s = s.hr.result ∧
    hostRead 3 s = s.hr.rxdata ∧ hostRead 4 s = engstat s.eng ∧
    hostRead 5 s = s.biu.bitrate ∧ hostRead 6 s = 0x00 ∧ hostRead 7 s = 0x00) ∧
  (∀ (s : State) (off : BitVec 3), s.nextEvent = .hostRead off → step s = .next s.advance)

/-- R25, R31. HR.ENGSTAT: BUSY in bit 0, PHASE in bits 3:1 by the codes of R31, DIR in bit 4, bits 7:5
zero. -/
def Obligations.EngstatLayout : Prop :=
  ∀ (s : State),
    (hostRead 4 s).getLsbD 0 = s.eng.busy ∧
    (hostRead 4 s).extractLsb' 1 3 = (match s.eng.phase with
      | .idle => 0 | .started => 1 | .addressSent => 2 | .transferring => 3 | .error => 4) ∧
    (hostRead 4 s).getLsbD 4 = decide (s.eng.dir = .read) ∧
    (hostRead 4 s).extractLsb' 5 3 = 0

/-! The BIU and reset -/

/-- R112. The completion of a START or transfer action. -/
def Obligations.ActionCompletion : Prop :=
  ∀ (s : State) (d : BiuDraw), s.nextEvent = .biu d → s.bk.unsync = false →
    (s.biu.pending = .start →
      step s = .next { s.advance with
        biu := { s.biu with
          status := d.code.zeroExtend 8 <<< 3 ||| (s.biu.status &&& 0x07)
          ctrl := s.biu.ctrl ||| 0x80
          pending := .none }
        bk := { s.bk with
          busLog := s.bk.busLog ++ [.done (d.code.zeroExtend 8 <<< 3) s.biu.data] } }) ∧
    (s.biu.pending = .xfer →
      step s = .next { s.advance with
        biu := { s.biu with
          status := d.code.zeroExtend 8 <<< 3 ||| (s.biu.status &&& 0x07)
          data := d.data
          ctrl := s.biu.ctrl ||| 0x80
          pending := .none }
        bk := { s.bk with
          busLog := s.bk.busLog ++ [.done (d.code.zeroExtend 8 <<< 3) d.data] } })

/-- R113. The completion of a STOP action clears STO, does not set INT, and logs StopDone. -/
def Obligations.StopCompletion : Prop :=
  ∀ (s : State) (d : BiuDraw), s.nextEvent = .biu d → s.bk.unsync = false →
    s.biu.pending = .stop →
    step s = .next { s.advance with
      biu := { s.biu with ctrl := s.biu.ctrl &&& 0xEF, pending := .none }
      bk := { s.bk with busLog := s.bk.busLog ++ [.stopDone] } }

/-- R114, R60. Whatever it draws, a BIU step leaves the host registers, the engine, BIU.BITRATE, the low
bits of BIU.STATUS, every bit of BIU.CTRL but INT and STO, and all bookkeeping but the log, which only
grows. -/
def Obligations.BiuTouchesOnlyItsOwn : Prop :=
  ∀ (s t : State) (d : BiuDraw), s.nextEvent = .biu d → step s = .next t →
    t.hr = s.hr ∧ t.eng = s.eng ∧ t.cfg = s.cfg ∧ t.biu.bitrate = s.biu.bitrate ∧
    t.biu.status &&& 0x07 = s.biu.status &&& 0x07 ∧
    t.biu.ctrl &&& 0x6F = s.biu.ctrl &&& 0x6F ∧
    ∃ es, t.bk = { s.bk with busLog := s.bk.busLog ++ es }

/-- R114. The unsynchronised BIU can bring about any values of what R114 names, and append any completion
event or none. -/
def Obligations.UnsyncBiuDrawsAnything : Prop :=
  ∀ (s : State) (int sto : Bool) (code : BitVec 5) (data : Byte) (p : Pending)
    (ev : Option Completion), s.bk.unsync = true →
    ∃ (d : BiuDraw) (t : State), step (s.withAgenda [.biu d]) = .next t ∧
      t.biu.ctrl.getLsbD 7 = int ∧ t.biu.ctrl.getLsbD 4 = sto ∧
      t.biu.status.extractLsb' 3 5 = code ∧ t.biu.data = data ∧ t.biu.pending = p ∧
      t.bk.busLog = s.bk.busLog ++ (match ev with
        | none => []
        | some (.done c b) => [.done (c.zeroExtend 8 <<< 3) b]
        | some .stopDone => [.stopDone])

/-- R230. Power-on reset, from any state, gives every field of 10_state.md the reset value its rule
gives; the configuration is no state. -/
def Obligations.ResetGivesEveryFieldItsValue : Prop :=
  ∀ (s : State), s.nextEvent = .reset →
    step s = .next { s.advance with
      hr := { cmd := 0x00, arg := 0x00, result := 0x00, rxdata := 0x00 }
      eng := { busy := false, phase := .idle, dir := .write, eseq := .sNone, cnt := .polls 0,
               opCmd := 0x00, opArg := 0x00 }
      biu := { ctrl := 0x00, status := 0xF8, data := 0xFF, bitrate := 0x00, pending := .none }
      bk := { violation := false, refused := false, initialized := false, busLog := [],
              lastStopExpired := false, unsync := false } }

/-- R231. After reset, in any configuration, the engine is idle in phase Idle with no BIU action
outstanding, ENGSTAT and BITRATE read 0x00, and the machine right after reset is the reset state of its
configuration (which configuration that is, is the model's choice, log entry 2). -/
def Obligations.ResetStateIsQuiescent : Prop :=
  State.reset = State.resetWith State.reset.cfg ∧
  ∀ (c : Config), Quiescent (State.resetWith c) ∧ (State.resetWith c).cfg = c ∧
    hostRead 4 (State.resetWith c) = 0x00 ∧ hostRead 5 (State.resetWith c) = 0x00

/-- R130, R131. In every configuration there is a machine for, the divisor neither underflows nor is
truncated, and it exceeds its floor. -/
def Obligations.DivisorFitsItsRegister : Prop :=
  ∀ (c : Config),
    16 ≤ c.params.fCpu / c.params.fBus ∧
    (divisorByte c.params).toNat = (c.params.fCpu / c.params.fBus - 16) / 2 ∧
    c.params.divisorMin < (divisorByte c.params).toNat

/-! Encoding -/

/-- R70, R73. Decoding the command word of a command gives the command back: no operand bit is dropped.
That a command carries the operand bits the hardware ignores is the model's choice (log entry 7). -/
def Obligations.DecodeOfEncode : Prop :=
  ∀ (i : Instr), decodeWord (encode i) = .ok i

/-- A command word that decodes to a command is the word of that command: no two words share a decoded
command. This is the model's choice (log entry 7): the decoded command keeps the operand bits the
hardware ignores, where the spec decodes 0x0100 and 0x01FF, and 0x05A0 and 0x05A1, to one command. -/
def Obligations.EncodeOfDecode : Prop :=
  ∀ (w : Word) (i : Instr), decodeWord w = .ok i → encode i = w

/-- R74, R75. Decoding is total: a word decodes to a command exactly where its op is one of the five,
and is rejected by its op everywhere else. -/
def Obligations.DecodeIsTotal : Prop :=
  ∀ (w : Word),
    (w.extractLsb' 8 8 ∈ [(0x01 : Byte), 0x02, 0x03, 0x04, 0x05] → ∃ i, decodeWord w = .ok i) ∧
    (w.extractLsb' 8 8 ∉ [(0x01 : Byte), 0x02, 0x03, 0x04, 0x05] →
      decodeWord w = .error (.reservedOpcode (w.extractLsb' 8 8)))

/-- Words of 95_test_vectors.md section 2.7 decode to the commands it gives, with the operands it gives.
That the decoded INIT, READ_NACK and STOP carry the ignored operand bits as well (0xFF of 0x01FF, 0x00 of
0x0400, bit 0 of 0x05A1) is the model's choice (log entry 7): there 0x01FF is INIT, and 0x05A1 the same
STOP 0x50 as 0x05A0. -/
def Obligations.DecodedWords : Prop :=
  decodeWord 0x01FF = .ok (.init 0xFF) ∧
  decodeWord 0x02D1 = .ok (.start 0x68 .read) ∧
  decodeWord 0x03AA = .ok (.write 0xAA) ∧
  decodeWord 0x0400 = .ok (.readNack 0x00) ∧
  decodeWord 0x05A1 = .ok (.stop 0x50 1) ∧
  decodeWord 0x0600 = .error (.reservedOpcode 0x06)

/-- R76. An assembler line with operands in range assembles to the word of a command whose ignored bits
are zero and which disassembles to the line; a line out of range is refused. -/
def Obligations.AssemblerAgreesWithDecoder : Prop :=
  ∀ (l : AsmLine),
    (l.wellFormed = true → ∃ (w : Word) (i : Instr),
      assemble l = some w ∧ decodeWord w = .ok i ∧ i.canonical = true ∧
      disassemble w = .line l) ∧
    (l.wellFormed = false → assemble l = none)

/-- The model's placement of an instruction (log entry 5): the very next step runs exactly it. -/
def Obligations.PlacedWordRunsNext : Prop :=
  ∀ (i : Instr) (s : State),
    step (s.withFetchWord 16 (encode i).toNat) =
      exec i { s with
        eng := { s.eng with busy := true, eseq := firstStep i, opCmd := i.op, opArg := i.arg } }

/-! The invariant and the whole-machine rules -/

/-- R119. The reset state of every configuration satisfies the invariant. -/
def Obligations.ResetSatisfiesInvariant : Prop :=
  ∀ (c : Config), Inv (State.resetWith c)

/-- R119. Every step, from every state that satisfies the invariant, whatever the next event, keeps it. -/
def Obligations.EveryStepKeepsInvariant : Prop :=
  ∀ (s t : State), Inv s → step s = .next t → Inv t

/-- R119 (a) to (f), as the rule states them, from the invariant. -/
def Obligations.InvariantGivesRuleR119 : Prop :=
  ∀ (s : State), Inv s →
    (s.eng.busy = true ↔ s.eng.eseq ≠ .sNone) ∧
    (s.eng.phase = .started → s.eng.busy = true ∧ s.eng.eseq = .sStartPoll2) ∧
    s.hr.result ∈ [(0x00 : Byte), 0x01, 0x02, 0x03, 0x04, 0x05, 0x06, 0x07, 0xFF] ∧
    (∀ b, waitBudgetOf s.cfg s.eng.eseq = some (.polls b) →
      ∃ n, s.eng.cnt = .polls n ∧ 1 ≤ n ∧ n ≤ b) ∧
    (s.bk.unsync = false →
      s.biu.ctrl ∈ [(0x00 : Byte), 0x04, 0x14, 0x24, 0x84, 0xA4]) ∧
    s.biu.status &&& 0x03 = 0 ∧ s.biu.status &&& 0x04 = 0 ∧
    s.biu.status &&& 0xF8 = s.biu.status

/-- R200: every step answers a next state, since the block has no fault outcome. That a refused access
answers one too, BK.refused set, is the model's reading (log entry 6) of R103's "either the next state or
a refusal". -/
def Obligations.EveryStepAnswersNext : Prop :=
  ∀ (s : State), ∃ t, step s = .next t

/-- R100, R46, R49. No step changes the configuration; without a reset the sticky bits stay set and the
bus log only grows. -/
def Obligations.ConfigurationAndStickyBits : Prop :=
  ∀ (s t : State), step s = .next t →
    t.cfg = s.cfg ∧
    (s.nextEvent ≠ .reset →
      (s.bk.violation = true → t.bk.violation = true) ∧
      (s.bk.refused = true → t.bk.refused = true) ∧
      (s.bk.initialized = true → t.bk.initialized = true) ∧
      (s.bk.unsync = true → t.bk.unsync = true) ∧
      ∃ es, t.bk.busLog = s.bk.busLog ++ es)

/-- R21, R22, R24, R32, R43. Who writes what: without a reset, HR.CMD changes only by a write to it while
idle, HR.ARG only by a write to it, HR.RXDATA only by a READ_NACK that sees its flag, ENG.dir only by
START's trigger, BIU.BITRATE only by INIT. -/
def Obligations.OnlyTheirWritersWrite : Prop :=
  ∀ (s t : State), step s = .next t → s.nextEvent ≠ .reset →
    (t.hr.cmd ≠ s.hr.cmd → s.nextEvent = .hostWrite 0 t.hr.cmd ∧ s.eng.busy = false) ∧
    (t.hr.arg ≠ s.hr.arg → s.nextEvent = .hostWrite 1 t.hr.arg) ∧
    (t.hr.rxdata ≠ s.hr.rxdata → s.nextEvent = .engine ∧ s.eng.eseq = .sReadPoll ∧
      s.biu.ctrl.getLsbD 7 = true ∧ t.hr.rxdata = s.biu.data) ∧
    (t.eng.dir ≠ s.eng.dir → s.nextEvent = .engine ∧ s.eng.eseq = .sStartTrig ∧
      t.eng.dir.bit = s.eng.opArg.extractLsb' 0 1) ∧
    (t.biu.bitrate ≠ s.biu.bitrate → s.nextEvent = .engine ∧ s.eng.eseq = .sInit)

/-- R23. HR.RESULT is written only by finish, which ends the running command, and by the rejection of a
reserved op; a command in progress leaves it. -/
def Obligations.ResultWrittenOnlyAtTheEnd : Prop :=
  ∀ (s t : State), step s = .next t → s.nextEvent ≠ .reset → t.hr.result ≠ s.hr.result →
    (s.nextEvent = .engine ∧ s.eng.busy = true ∧ t.eng.busy = false) ∨
    (∃ c, s.nextEvent = .hostWrite 0 c ∧ s.eng.busy = false ∧ t.hr.result = 0xFF ∧
      c ∉ [(0x01 : Byte), 0x02, 0x03, 0x04, 0x05])

/-- R202. In contract, a step that leaves phase Error is the last step of a STOP, and goes to Idle. -/
def Obligations.ErrorLeftOnlyByStop : Prop :=
  ∀ (s t : State), Inv s → step s = .next t → s.nextEvent ≠ .reset →
    s.bk.violation = false → s.eng.phase = .error → t.eng.phase ≠ .error →
    s.nextEvent = .engine ∧ s.eng.eseq = .sStopPoll ∧ t.eng.phase = .idle

/-- R201, R202. A step that enters phase Error is an engine step that ends the running command with the
result of a failure of that command. -/
def Obligations.EntryToErrorReportsFailure : Prop :=
  ∀ (s t : State), step s = .next t → s.eng.phase ≠ .error → t.eng.phase = .error →
    s.nextEvent = .engine ∧ t.eng.busy = false ∧
    ((s.eng.eseq = .sStartPoll1 ∧ (t.hr.result = 0x01 ∨ t.hr.result = 0x02)) ∨
     (s.eng.eseq = .sStartPoll2 ∧ (t.hr.result = 0x03 ∨ t.hr.result = 0x04)) ∨
     (s.eng.eseq = .sWritePoll ∧ (t.hr.result = 0x05 ∨ t.hr.result = 0x06)) ∨
     (s.eng.eseq = .sReadPoll ∧ t.hr.result = 0x07))

/-- R204. After START_BAD_STATUS, ADDR_NACK or DATA_NACK of a synchronised BIU no action is
outstanding. -/
def Obligations.NothingOutstandingAfterNack : Prop :=
  ∀ (s t : State), Inv s → s.bk.unsync = false → s.nextEvent = .engine → s.eng.busy = true →
    step s = .next t → t.eng.busy = false →
    (t.hr.result = 0x02 ∨ t.hr.result = 0x04 ∨ t.hr.result = 0x05) →
    t.biu.pending = .none

/-- R111. A trigger sets BK.unsync only over an action that was never completed, the last event of the
log being still its trigger; and then the phase is Error, or the last STOP expired. -/
def Obligations.UnsyncOnlyAfterExpiredWait : Prop :=
  ∀ (s t : State), Inv s → step s = .next t → s.bk.unsync = false → t.bk.unsync = true →
    s.nextEvent = .engine ∧ s.biu.pending ≠ .none ∧
    (∃ k b, s.bk.busLog.getLast? = some (.trig k b)) ∧
    (s.eng.phase = .error ∨ s.bk.lastStopExpired = true)

/-- R185. A STOP that ends with last_stop_expired 0 and a synchronised BIU has StopDone as the last event
of the log, and nothing outstanding. -/
def Obligations.StopReleasesBus : Prop :=
  ∀ (s t : State), Inv s → s.nextEvent = .engine → s.eng.eseq = .sStopPoll →
    step s = .next t → t.eng.busy = false → BusReleased t →
    t.bk.busLog.getLast? = some .stopDone ∧ t.biu.pending = .none ∧ t.eng.phase = .idle

/-- R35, R64. No host access changes a running command: while busy, a host step leaves the engine, the
BIU, HR.CMD, HR.RESULT and HR.RXDATA as they are. -/
def Obligations.HostCannotDisturbRunningCommand : Prop :=
  ∀ (s t : State) (a : HostAccess), s.nextEvent = .host a → s.eng.busy = true →
    step s = .next t →
    t.eng = s.eng ∧ t.biu = s.biu ∧ t.hr.cmd = s.hr.cmd ∧ t.hr.result = s.hr.result ∧
    t.hr.rxdata = s.hr.rxdata ∧ t.bk.busLog = s.bk.busLog

/-- R71, R180, R183 (d). The operand of INIT, READ_NACK and STOP has no effect on any state: two runs of
such a command that differ only in the latched operand differ only in it after every step. -/
def Obligations.IgnoredOperandHasNoEffect : Prop :=
  ∀ (s t : State) (b : Byte), s.nextEvent = .engine →
    (s.eng.eseq.opcode = some 0x01 ∨ s.eng.eseq.opcode = some 0x04 ∨
      s.eng.eseq.opcode = some 0x05) →
    step s = .next t →
    step { s with eng := { s.eng with opArg := b } } =
      .next { t with eng := { t.eng with opArg := b } }

/-! Whole waits, over every interleaving of the agents -/

/-- R145, the source's timeout property. Under SILENT_BIU a START ends with START_TIMEOUT after exactly
1 + WAIT_BUDGET engine steps, whatever the host does in between; after fewer it is still running. -/
def Obligations.StartTimesOutOnSilentBiu : Prop :=
  ∀ (s : State) (es : List Event), s.eng.busy = true → s.eng.eseq = .sStartTrig →
    SilentBiu es → Event.reset ∉ es →
    (engineSteps es ≤ s.cfg.params.waitBudget →
      ∃ t, runPlan s es = .next t ∧ t.eng.busy = true ∧ t.hr.result = s.hr.result) ∧
    (engineSteps es = s.cfg.params.waitBudget →
      ∃ t, runPlan s (es ++ [.engine]) = .next t ∧ t.eng.busy = false ∧
        t.hr.result = 0x01 ∧ t.eng.phase = .error ∧ t.biu.pending = .start ∧
        t.bk.busLog = s.bk.busLog ++ [.trig .start s.biu.data])

/-- R145. Whatever the BIU and the host do, a START ends within 1 + 2 · WAIT_BUDGET engine steps, with one
of its five results and in phase AddressSent or Error. -/
def Obligations.StartAlwaysEnds : Prop :=
  ∀ (s : State) (es : List Event), s.eng.busy = true → s.eng.eseq = .sStartTrig →
    Event.reset ∉ es → 1 + 2 * s.cfg.params.waitBudget ≤ engineSteps es →
    ∃ (pre suf : List Event) (t : State), es = pre ++ suf ∧
      engineSteps pre ≤ 1 + 2 * s.cfg.params.waitBudget ∧
      runPlan s pre = .next t ∧ t.eng.busy = false ∧
      ((t.hr.result = 0x00 ∧ t.eng.phase = .addressSent) ∨
       (t.hr.result ∈ [(0x01 : Byte), 0x02, 0x03, 0x04] ∧ t.eng.phase = .error))

/-- R184. Whatever the BIU and the host do, a STOP with a finite budget ends within 1 + STOP_WAIT_BUDGET
engine steps, with OK and in phase Idle. -/
def Obligations.BoundedStopAlwaysEnds : Prop :=
  ∀ (s : State) (es : List Event) (b : Nat), s.eng.busy = true → s.eng.eseq = .sStopTrig →
    s.cfg.params.stopWaitBudget = .polls b →
    Event.reset ∉ es → 1 + b ≤ engineSteps es →
    ∃ (pre suf : List Event) (t : State), es = pre ++ suf ∧ engineSteps pre ≤ 1 + b ∧
      runPlan s pre = .next t ∧ t.eng.busy = false ∧ t.hr.result = 0x00 ∧ t.eng.phase = .idle

/-- R168. In hardened mode, whatever the BIU and the host do, a WRITE or READ_NACK ends within
1 + BYTE_WAIT_BUDGET engine steps, in phase Transferring with OK or in phase Error with its own
failure. -/
def Obligations.HardenedByteAlwaysEnds : Prop :=
  ∀ (s : State) (es : List Event) (b : Nat), s.eng.busy = true →
    s.cfg.params.byteWaitBudget = .polls b →
    Event.reset ∉ es → 1 + b ≤ engineSteps es →
    (s.eng.eseq = .sWriteTrig →
      ∃ (pre suf : List Event) (t : State), es = pre ++ suf ∧ engineSteps pre ≤ 1 + b ∧
        runPlan s pre = .next t ∧ t.eng.busy = false ∧
        ((t.hr.result = 0x00 ∧ t.eng.phase = .transferring) ∨
         ((t.hr.result = 0x05 ∨ t.hr.result = 0x06) ∧ t.eng.phase = .error))) ∧
    (s.eng.eseq = .sReadTrig →
      ∃ (pre suf : List Event) (t : State), es = pre ++ suf ∧ engineSteps pre ≤ 1 + b ∧
        runPlan s pre = .next t ∧ t.eng.busy = false ∧
        ((t.hr.result = 0x00 ∧ t.eng.phase = .transferring) ∨
         (t.hr.result = 0x07 ∧ t.eng.phase = .error)))

/-- R101, R145, R207. On every infinite run in which the engine is fair, a START ends, whatever the host
and the BIU do: no START hangs. -/
def Obligations.FairRunEndsStart : Prop :=
  ∀ (r : Nat → State) (es : Nat → Event), InfiniteRun r es → EngineFair r es →
    (∀ n, es n ≠ .reset) → (r 0).eng.busy = true → (r 0).eng.eseq = .sStartTrig →
    ∃ n, (r n).eng.busy = false ∧
      (((r n).hr.result = 0x00 ∧ (r n).eng.phase = .addressSent) ∨
       ((r n).hr.result ∈ [(0x01 : Byte), 0x02, 0x03, 0x04] ∧ (r n).eng.phase = .error))

/-- R116, R163 (a), R207. A faithful WRITE or READ_NACK, or a STOP with an unbounded budget, hangs on a
silent BIU: after any number of steps of engine and host it is still running, and neither the engine, the
BIU, the bus log, HR.CMD, HR.RESULT nor HR.RXDATA has changed. -/
def Obligations.UnboundedWaitHangs : Prop :=
  ∀ (s : State) (es : List Event), s.eng.busy = true → SilentBiu es → Event.reset ∉ es →
    ((s.eng.eseq = .sWritePoll ∨ s.eng.eseq = .sReadPoll) ∧
        s.cfg.params.byteWaitBudget = .unbounded ∧ s.biu.ctrl.getLsbD 7 = false ∨
      s.eng.eseq = .sStopPoll ∧
        s.cfg.params.stopWaitBudget = .unbounded ∧ s.biu.ctrl.getLsbD 4 = true) →
    ∃ t, runPlan s es = .next t ∧ t.eng = s.eng ∧ t.biu = s.biu ∧
      t.bk.busLog = s.bk.busLog ∧ t.hr.cmd = s.hr.cmd ∧
      t.hr.result = s.hr.result ∧ t.hr.rxdata = s.hr.rxdata

/-- R62. Once BUSY is 0, whatever the agents do, RESULT, RXDATA, PHASE and DIR stay until the host issues
another command or the block is reset. -/
def Obligations.ResultsStayUntilNextCommand : Prop :=
  ∀ (s : State) (es : List Event), s.eng.busy = false → Event.reset ∉ es →
    (∀ e ∈ es, Event.isCmdWrite e = false) →
    ∃ t, runPlan s es = .next t ∧ t.eng.busy = false ∧
      hostRead 2 t = hostRead 2 s ∧ hostRead 3 t = hostRead 3 s ∧ hostRead 4 t = hostRead 4 s

/-- R118, R140. On a synchronised bus with nothing outstanding, a START to a slave that acknowledges, the
BIU responsive within WAIT_BUDGET, ends with OK in phase AddressSent, however the agents interleave. -/
def Obligations.StartSucceedsOnAckingSlave : Prop :=
  ∀ (a : BitVec 7) (d : Direction) (s t : State) (es : List Event),
    s.eng.busy = true → s.eng.eseq = .sStartTrig → s.eng.opArg = slaByte a d →
    s.bk.unsync = false → s.biu.pending = .none →
    Event.reset ∉ es → (∀ e ∈ es, Event.isCmdWrite e = false) →
    Responsive s.cfg.params.waitBudget s es → AckSlave a s es →
    runPlan s es = .next t → t.eng.busy = false →
    t.hr.result = 0x00 ∧ t.eng.phase = .addressSent ∧ t.eng.dir = d ∧ t.bk.unsync = false

/-- R118, R143, the source's absent-slave property. A START whose START condition is confirmed, by 0x08
or by 0x10, and whose slave is absent, the BIU responsive within WAIT_BUDGET, ends with ADDR_NACK in
phase Error. -/
def Obligations.StartReportsAbsentSlave : Prop :=
  ∀ (a : BitVec 7) (d : Direction) (s t : State) (es : List Event),
    s.eng.busy = true → s.eng.eseq = .sStartTrig → s.eng.opArg = slaByte a d →
    s.bk.unsync = false → s.biu.pending = .none →
    Event.reset ∉ es → (∀ e ∈ es, Event.isCmdWrite e = false) →
    Responsive s.cfg.params.waitBudget s es → AbsentSlave a s es →
    Draws (fun sent code => sent = some .start → code = 0x08 ∨ code = 0x10) s es →
    runPlan s es = .next t → t.eng.busy = false →
    t.hr.result = 0x04 ∧ t.eng.phase = .error

/-- R118, R160. A WRITE on a synchronised bus with nothing outstanding, whose data byte the slave
acknowledges (or does not), ends with OK in phase Transferring (or with DATA_NACK in phase Error) once it
ends, in faithful mode, however late the BIU completes. -/
def Obligations.WriteReportsSlavesAnswer : Prop :=
  ∀ (s t : State) (es : List Event) (ack : Bool),
    s.eng.busy = true → s.eng.eseq = .sWriteTrig → s.cfg.params.byteWaitBudget = .unbounded →
    s.bk.unsync = false → s.biu.pending = .none →
    Event.reset ∉ es → (∀ e ∈ es, Event.isCmdWrite e = false) →
    (∀ d, Event.biu d ∈ es → (codeByte d.code = 0x28 ↔ ack = true)) →
    runPlan s es = .next t → t.eng.busy = false →
    (if ack then t.hr.result = 0x00 ∧ t.eng.phase = .transferring
      else t.hr.result = 0x05 ∧ t.eng.phase = .error)
end

