-- ==== Sys2Proof/Laws/Flags.lean ====
section
/-! SUPPORT. The status checks and the register fields as masks of the byte, the configuration check as
its five conditions, and the replay of a log one event longer. -/

namespace Sys2Proof

/-- The five conditions of R131. -/
theorem Params.wellFormed_iff (p : Params) : p.wellFormed = true ↔
    0 < p.fCpu ∧ 0 < p.fBus ∧ 16 ≤ p.fCpu / p.fBus ∧ Machine.divisor p ≤ 255 ∧
      p.divisorMin < Machine.divisor p ∧ 1 ≤ p.waitBudget ∧
      p.stopWaitBudget.wellFormed = true ∧ p.byteWaitBudget.wellFormed = true := by
  simp only [Params.wellFormed, Bool.and_eq_true, decide_eq_true_eq, and_assoc]

namespace Machine

/-- The check after START accepts 0x08 and 0x10 (R80). -/
theorem startConfirmed_iff (status : Byte) :
    startConfirmed status = true ↔ status &&& 0xF8 = 0x08 ∨ status &&& 0xF8 = 0x10 := by
  revert status; decide

/-- The check after the address frame accepts 0x18 for write and 0x40 for read (R80). -/
theorem addressAcked_iff (dir : Direction) (status : Byte) :
    addressAcked dir status = true ↔
      status &&& 0xF8 = (match dir with | .write => 0x18 | .read => 0x40) := by
  cases dir <;> revert status <;> decide

/-- The check after a data byte accepts 0x28 (R80). -/
theorem dataAcked_iff (status : Byte) : dataAcked status = true ↔ status &&& 0xF8 = 0x28 := by
  revert status; decide

/-- A code as the log holds it: `code << 3` (R112). -/
theorem codeByte_eq (code : BitVec 5) : codeByte code = code.zeroExtend 8 <<< 3 := by
  revert code; decide

/-- A status with a new code keeps its low bits (R112). -/
theorem statusWithCode_eq (status : Byte) (code : BitVec 5) :
    statusWithCode status code = code.zeroExtend 8 <<< 3 ||| (status &&& 0x07) := by
  revert status code; decide

/-- The engine's masked reading of a status with a new code is that code (R41, R112). -/
theorem statusWithCode_masked (status : Byte) (code : BitVec 5) :
    statusWithCode status code &&& 0xF8 = codeByte code := by
  revert status code; decide

/-- A log one event longer replays one event further. -/
theorem replay_append (log : List BusEvent) (e : BusEvent) :
    replay (log ++ [e]) = (replay log).bind (replayEvent · e) := by
  simp [replay, List.foldl_append]

end Machine
end Sys2Proof
end

