-- ==== Sys2Proof/Laws/Operands.lean ====
section
/-! SUPPORT. The small facts about operand forms and the opcode map: the parts of an operand are read
back, and the opcodes differ. -/

namespace Sys2Proof

@[simp] theorem Direction.ofBit_bit (d : Direction) : Direction.ofBit d.bit = d := by
  cases d <;> rfl

theorem Direction.bit_ofBit (b : BitVec 1) : (Direction.ofBit b).bit = b := by
  revert b; decide

namespace Machine

@[simp] theorem argAddr_append (a : BitVec 7) (b : BitVec 1) : argAddr (a ++ b) = a :=
  BitVec.extractLsb'_append_eq_left

@[simp] theorem argBit0_append (a : BitVec 7) (b : BitVec 1) : argBit0 (a ++ b) = b :=
  (BitVec.extractLsb'_append_eq_of_add_le (by decide)).trans BitVec.extractLsb'_eq_self

@[simp] theorem argAddr_slaByte (a : BitVec 7) (d : Direction) : argAddr (slaByte a d) = a :=
  argAddr_append a d.bit

@[simp] theorem argBit0_slaByte (a : BitVec 7) (d : Direction) : argBit0 (slaByte a d) = d.bit :=
  argBit0_append a d.bit

theorem arg_parts (arg : Byte) : (argAddr arg ++ argBit0 arg : Byte) = arg := by
  revert arg; decide

/-- The SLA byte decoded from a latched operand is that operand (R72). -/
theorem slaByte_latched (arg : Byte) :
    slaByte (argAddr arg) (Direction.ofBit (argBit0 arg)) = arg := by
  rw [slaByte, Direction.bit_ofBit, arg_parts]

/-- The SLA byte is the source's `(slaveAddress << 1) | directionBit` (R72). -/
theorem slaByte_eq (a : BitVec 7) (d : Direction) :
    slaByte a d = (a.zeroExtend 8 <<< 1 ||| d.bit.zeroExtend 8) := by
  revert a; cases d <;> decide

end Machine

@[simp] theorem word_op_append (op arg : Byte) : Word.op (op ++ arg) = op :=
  BitVec.extractLsb'_append_eq_left

@[simp] theorem word_arg_append (op arg : Byte) : Word.arg (op ++ arg) = arg :=
  (BitVec.extractLsb'_append_eq_of_add_le (by decide)).trans BitVec.extractLsb'_eq_self

/-- Decoding by the opcode of a constructor: each opcode selects its own command. -/
theorem decode_op_arg (i : Instr) (arg : Byte) :
    decode i.op arg = .ok (match i with
      | .init _ => .init arg
      | .start _ _ => .start (Machine.argAddr arg) (Direction.ofBit (Machine.argBit0 arg))
      | .write _ => .write arg
      | .readNack _ => .readNack arg
      | .stop _ _ => .stop (Machine.argAddr arg) (Machine.argBit0 arg)) := by
  cases i <;> rfl

end Sys2Proof
end

