-- ==== Sys2Proof/Laws/State.lean ====
section
/-! SUPPORT. What each update of the state leaves and sets: one lemma per field per update, so that no
proof unfolds a record update. -/

namespace Sys2Proof.Machine

variable (s : State)

@[simp] theorem State.withHr_hr (h : HostRegs) : (s.withHr h).hr = h := rfl
@[simp] theorem State.withHr_eng (h : HostRegs) : (s.withHr h).eng = s.eng := rfl
@[simp] theorem State.withHr_biu (h : HostRegs) : (s.withHr h).biu = s.biu := rfl
@[simp] theorem State.withHr_bk (h : HostRegs) : (s.withHr h).bk = s.bk := rfl
@[simp] theorem State.withHr_cfg (h : HostRegs) : (s.withHr h).cfg = s.cfg := rfl
@[simp] theorem State.withHr_agenda (h : HostRegs) : (s.withHr h).agenda = s.agenda := rfl
@[simp] theorem State.withHr_drawn (h : HostRegs) : (s.withHr h).drawn = s.drawn := rfl

@[simp] theorem State.withEng_hr (e : Engine) : (s.withEng e).hr = s.hr := rfl
@[simp] theorem State.withEng_eng (e : Engine) : (s.withEng e).eng = e := rfl
@[simp] theorem State.withEng_biu (e : Engine) : (s.withEng e).biu = s.biu := rfl
@[simp] theorem State.withEng_bk (e : Engine) : (s.withEng e).bk = s.bk := rfl
@[simp] theorem State.withEng_cfg (e : Engine) : (s.withEng e).cfg = s.cfg := rfl
@[simp] theorem State.withEng_agenda (e : Engine) : (s.withEng e).agenda = s.agenda := rfl
@[simp] theorem State.withEng_drawn (e : Engine) : (s.withEng e).drawn = s.drawn := rfl

@[simp] theorem State.withBiu_hr (b : Biu) : (s.withBiu b).hr = s.hr := rfl
@[simp] theorem State.withBiu_eng (b : Biu) : (s.withBiu b).eng = s.eng := rfl
@[simp] theorem State.withBiu_biu (b : Biu) : (s.withBiu b).biu = b := rfl
@[simp] theorem State.withBiu_bk (b : Biu) : (s.withBiu b).bk = s.bk := rfl
@[simp] theorem State.withBiu_cfg (b : Biu) : (s.withBiu b).cfg = s.cfg := rfl
@[simp] theorem State.withBiu_agenda (b : Biu) : (s.withBiu b).agenda = s.agenda := rfl
@[simp] theorem State.withBiu_drawn (b : Biu) : (s.withBiu b).drawn = s.drawn := rfl

@[simp] theorem State.withBk_hr (b : Book) : (s.withBk b).hr = s.hr := rfl
@[simp] theorem State.withBk_eng (b : Book) : (s.withBk b).eng = s.eng := rfl
@[simp] theorem State.withBk_biu (b : Book) : (s.withBk b).biu = s.biu := rfl
@[simp] theorem State.withBk_bk (b : Book) : (s.withBk b).bk = b := rfl
@[simp] theorem State.withBk_cfg (b : Book) : (s.withBk b).cfg = s.cfg := rfl
@[simp] theorem State.withBk_agenda (b : Book) : (s.withBk b).agenda = s.agenda := rfl
@[simp] theorem State.withBk_drawn (b : Book) : (s.withBk b).drawn = s.drawn := rfl

@[simp] theorem State.withAgenda_hr (es : List Event) : (s.withAgenda es).hr = s.hr := rfl
@[simp] theorem State.withAgenda_eng (es : List Event) : (s.withAgenda es).eng = s.eng := rfl
@[simp] theorem State.withAgenda_biu (es : List Event) : (s.withAgenda es).biu = s.biu := rfl
@[simp] theorem State.withAgenda_bk (es : List Event) : (s.withAgenda es).bk = s.bk := rfl
@[simp] theorem State.withAgenda_cfg (es : List Event) : (s.withAgenda es).cfg = s.cfg := rfl
@[simp] theorem State.withAgenda_agenda (es : List Event) : (s.withAgenda es).agenda = es := rfl
@[simp] theorem State.withAgenda_drawn (es : List Event) : (s.withAgenda es).drawn = s.drawn := rfl

@[simp] theorem State.advance_hr : s.advance.hr = s.hr := by unfold State.advance; split <;> rfl
@[simp] theorem State.advance_eng : s.advance.eng = s.eng := by unfold State.advance; split <;> rfl
@[simp] theorem State.advance_biu : s.advance.biu = s.biu := by unfold State.advance; split <;> rfl
@[simp] theorem State.advance_bk : s.advance.bk = s.bk := by unfold State.advance; split <;> rfl
@[simp] theorem State.advance_cfg : s.advance.cfg = s.cfg := by unfold State.advance; split <;> rfl

@[simp] theorem State.nextEvent_withAgenda_cons (e : Event) (es : List Event) :
    (s.withAgenda (e :: es)).nextEvent = e := rfl

@[simp] theorem State.advance_withAgenda_cons (e : Event) (es : List Event) :
    (s.withAgenda (e :: es)).advance = s.withAgenda es := rfl

@[simp] theorem State.withAgenda_withAgenda (es es' : List Event) :
    (s.withAgenda es).withAgenda es' = s.withAgenda es' := rfl

end Sys2Proof.Machine
end

