-- ==== Sys2Proof/Laws/Ops.lean ====
section
/-! SUPPORT. One lemma per shared operation of Machine/Ops.lean that says everything it can do; later
proofs cite it and do not unfold the operation. -/

namespace Sys2Proof.Machine

variable (s : State)

/-! finish and fail (R106, R202) -/

@[simp] theorem finish_hr (r : ResultCode) (p : Option Phase) :
    (finish r p s).hr = { s.hr with result := r.byte } := rfl
@[simp] theorem finish_eng (r : ResultCode) (p : Option Phase) :
    (finish r p s).eng =
      { s.eng with phase := p.getD s.eng.phase, busy := false, eseq := .sNone } := rfl
@[simp] theorem finish_biu (r : ResultCode) (p : Option Phase) : (finish r p s).biu = s.biu := rfl
@[simp] theorem finish_bk (r : ResultCode) (p : Option Phase) : (finish r p s).bk = s.bk := rfl
@[simp] theorem finish_cfg (r : ResultCode) (p : Option Phase) : (finish r p s).cfg = s.cfg := rfl
@[simp] theorem finish_agenda (r : ResultCode) (p : Option Phase) :
    (finish r p s).agenda = s.agenda := rfl
@[simp] theorem finish_drawn (r : ResultCode) (p : Option Phase) :
    (finish r p s).drawn = s.drawn := rfl

theorem fail_eq_finish (r : ResultCode) : fail r s = finish r (some .error) s := rfl

/-! The trigger and the wait it begins (R111, R115) -/

@[simp] theorem biuTrigger_hr (v : Byte) (k : TrigKind) : (biuTrigger v k s).hr = s.hr := rfl
@[simp] theorem biuTrigger_eng (v : Byte) (k : TrigKind) : (biuTrigger v k s).eng = s.eng := rfl
@[simp] theorem biuTrigger_biu (v : Byte) (k : TrigKind) :
    (biuTrigger v k s).biu =
      { s.biu with ctrl := ctrlWithInt v false, pending := triggeredAction v } := rfl
@[simp] theorem biuTrigger_bk (v : Byte) (k : TrigKind) :
    (biuTrigger v k s).bk =
      { s.bk with
        unsync := s.bk.unsync || decide (s.biu.pending ≠ .none)
        busLog := s.bk.busLog ++ [.trig k s.biu.data] } := rfl
@[simp] theorem biuTrigger_cfg (v : Byte) (k : TrigKind) : (biuTrigger v k s).cfg = s.cfg := rfl
@[simp] theorem biuTrigger_agenda (v : Byte) (k : TrigKind) :
    (biuTrigger v k s).agenda = s.agenda := rfl
@[simp] theorem biuTrigger_drawn (v : Byte) (k : TrigKind) :
    (biuTrigger v k s).drawn = s.drawn := rfl

@[simp] theorem beginWait_hr (b : Budget) (q : Sequencer) : (beginWait b q s).hr = s.hr := rfl
@[simp] theorem beginWait_eng (b : Budget) (q : Sequencer) :
    (beginWait b q s).eng = { s.eng with cnt := b, eseq := q } := rfl
@[simp] theorem beginWait_biu (b : Budget) (q : Sequencer) : (beginWait b q s).biu = s.biu := rfl
@[simp] theorem beginWait_bk (b : Budget) (q : Sequencer) : (beginWait b q s).bk = s.bk := rfl
@[simp] theorem beginWait_cfg (b : Budget) (q : Sequencer) : (beginWait b q s).cfg = s.cfg := rfl
@[simp] theorem beginWait_agenda (b : Budget) (q : Sequencer) :
    (beginWait b q s).agenda = s.agenda := rfl
@[simp] theorem beginWait_drawn (b : Budget) (q : Sequencer) :
    (beginWait b q s).drawn = s.drawn := rfl

/-! What the three trigger values do (R81, R111) -/

@[simp] theorem ctrlWithInt_tStart : ctrlWithInt tStart false = 0x24 := rfl
@[simp] theorem ctrlWithInt_tXfer : ctrlWithInt tXfer false = 0x04 := rfl
@[simp] theorem ctrlWithInt_tStop : ctrlWithInt tStop false = 0x14 := rfl
@[simp] theorem triggeredAction_tStart : triggeredAction tStart = .start := rfl
@[simp] theorem triggeredAction_tXfer : triggeredAction tXfer = .xfer := rfl
@[simp] theorem triggeredAction_tStop : triggeredAction tStop = .stop := rfl

/-! The timeout guard (R115, R116) -/

/-- A poll that sees its flag does what the wait does on success. -/
@[simp] theorem pollBounded_flag (ok late : State → State) : pollBounded true ok late s = ok s := rfl

/-- The poll that uses up the budget does what the wait does on timeout, with the counter at 0. -/
theorem pollBounded_last (ok late : State → State) (h : s.eng.cnt = .polls 1) :
    pollBounded false ok late s = late (s.withEng { s.eng with cnt := .polls 0 }) := by
  simp [pollBounded, h, Budget.less]

/-- Any other poll without the flag only counts down. -/
theorem pollBounded_more (ok late : State → State) (n : Nat) (h : s.eng.cnt = .polls (n + 2)) :
    pollBounded false ok late s = s.withEng { s.eng with cnt := .polls (n + 1) } := by
  simp [pollBounded, h, Budget.less]

/-- Everything a bounded poll can do. -/
theorem pollBounded_cases (flag : Bool) (ok late : State → State) :
    (flag = true ∧ pollBounded flag ok late s = ok s) ∨
    (flag = false ∧ Budget.less s.eng.cnt = .polls 0 ∧
      pollBounded flag ok late s = late (s.withEng { s.eng with cnt := .polls 0 })) ∨
    (flag = false ∧ Budget.less s.eng.cnt ≠ .polls 0 ∧
      pollBounded flag ok late s = s.withEng { s.eng with cnt := Budget.less s.eng.cnt }) := by
  cases flag
  · by_cases h : Budget.less s.eng.cnt = .polls 0 <;> simp [pollBounded, h]
  · simp

@[simp] theorem pollUnbounded_flag (ok : State → State) : pollUnbounded true ok s = ok s := rfl

/-- A spin changes nothing (R116). -/
@[simp] theorem pollUnbounded_spin (ok : State → State) : pollUnbounded false ok s = s := rfl

@[simp] theorem pollWithin_unbounded (flag : Bool) (ok late : State → State) :
    pollWithin .unbounded flag ok late s = pollUnbounded flag ok s := rfl

@[simp] theorem pollWithin_polls (b : Nat) (flag : Bool) (ok late : State → State) :
    pollWithin (.polls b) flag ok late s = pollBounded flag ok late s := rfl

/-- A poll that sees its flag does what the wait does on success, whatever the budget. -/
@[simp] theorem pollWithin_flag (b : Budget) (ok late : State → State) :
    pollWithin b true ok late s = ok s := by
  cases b <;> rfl

/-! Issue, acceptance, and the other host accesses (R104, R105) -/

/-- The contract check changes BK.violation alone (R211). -/
theorem contractCheck_eq (i : Instr) :
    contractCheck i s = s.withBk { s.bk with
      violation := s.bk.violation ||
        !inContract i s.eng.phase s.eng.dir s.bk.initialized } := by
  unfold contractCheck
  cases h : inContract i s.eng.phase s.eng.dir s.bk.initialized <;> simp [State.withBk]

/-- Everything acceptance does (R104). -/
theorem accept_eq (c : Byte) (i : Instr) :
    accept c i s = (s.withBk { s.bk with
        violation := s.bk.violation ||
          !inContract i s.eng.phase s.eng.dir s.bk.initialized }).withEng
      { s.eng with opCmd := c, opArg := s.hr.arg, busy := true, eseq := firstStep i } := by
  unfold accept
  rw [contractCheck_eq]
  rfl

/-- Everything an issue while idle does: reject a reserved op, or accept a command (R74, R104). -/
theorem issueIdle_cases (c : Byte) :
    ((∃ r, decode c s.hr.arg = .error r) ∧
      issueIdle c s = s.withHr { s.hr with cmd := c, result := 0xFF }) ∨
    (∃ i, decode c s.hr.arg = .ok i ∧
      issueIdle c s = accept c i (s.withHr { s.hr with cmd := c })) := by
  unfold issueIdle
  cases h : decode c s.hr.arg with
  | error r => exact .inl ⟨⟨r, rfl⟩, by simp only [State.withHr_hr, h]; rfl⟩
  | ok i => exact .inr ⟨i, rfl, by simp only [State.withHr_hr, h]⟩

/-- Everything a host write does (R27, R57, R58, R104, R105). -/
theorem hostWrite_cases (off : BitVec 3) (v : Byte) :
    (off = 0 ∧ s.eng.busy = true ∧ hostWrite off v s = refuse s) ∨
    (off = 0 ∧ s.eng.busy = false ∧ hostWrite off v s = issueIdle v s) ∨
    (off = 1 ∧ hostWrite off v s = s.withHr { s.hr with arg := v }) ∨
    (off ≠ 0 ∧ off ≠ 1 ∧ hostWrite off v s = s) := by
  unfold hostWrite
  by_cases h0 : off = 0
  · rw [if_pos h0]
    cases hb : s.eng.busy
    · exact .inr (.inl ⟨h0, rfl, by simp⟩)
    · exact .inl ⟨h0, rfl, by simp⟩
  · rw [if_neg h0]
    by_cases h1 : off = 1
    · exact .inr (.inr (.inl ⟨h1, if_pos h1⟩))
    · exact .inr (.inr (.inr ⟨h0, h1, if_neg h1⟩))

/-- Everything a host step does: nothing, a refusal, or a write. -/
theorem hostStep_cases (a : HostAccess) :
    (a.width ≠ 8 ∧ hostStep a s = refuse s) ∨
    (a.width = 8 ∧ a.op = .read ∧ hostStep a s = s) ∨
    (∃ v, a.width = 8 ∧ a.op = .write v ∧ hostStep a s = hostWrite a.off v s) := by
  unfold hostStep
  by_cases hw : a.width = 8
  · cases ho : a.op with
    | read => simp [hw]
    | write v => exact .inr (.inr ⟨v, hw, rfl, by simp [hw]⟩)
  · simp [hw]

/-! The BIU (R112, R113, R114) -/

/-- Everything a BIU step does. -/
theorem biuStep_cases (d : BiuDraw) :
    (s.bk.unsync = true ∧ biuStep d s = biuUnsync d s) ∨
    (s.bk.unsync = false ∧ s.biu.pending = .none ∧ biuStep d s = s) ∨
    (s.bk.unsync = false ∧ (s.biu.pending = .start ∨ s.biu.pending = .xfer) ∧
      biuStep d s = actionCompletes d s) ∨
    (s.bk.unsync = false ∧ s.biu.pending = .stop ∧ biuStep d s = stopCompletes s) := by
  unfold biuStep
  cases hu : s.bk.unsync <;> cases hp : s.biu.pending <;> simp

end Sys2Proof.Machine
end

