-- ==== Sys2Proof/Laws/PerInstr.lean ====
section
/-! SUPPORT. Per command: its word carries the match value of its row of the opcode map in the bits the
row's mask selects (30_encoding.md R73), and is one 16-bit word. -/

namespace Sys2Proof.Laws.EncodeMatchesTable

/-- The match value of a command's row of the opcode map (R73). -/
def rowMatch : Instr → Word
  | .init _ => 0x0100
  | .start _ _ => 0x0200
  | .write _ => 0x0300
  | .readNack _ => 0x0400
  | .stop _ _ => 0x0500

/-- The word of `i` matches its row of the opcode map under the mask 0xFF00. -/
def Statement (i : Instr) : Prop :=
  encode i &&& 0xFF00 = rowMatch i

/-- The bits of a word above the operand are its opcode. -/
theorem op_masked (op arg : Byte) :
    (op ++ arg : Word) &&& 0xFF00 = op.zeroExtend 16 <<< 8 := by
  apply BitVec.eq_of_getLsbD_eq
  intro k hk
  show ((op ++ arg : BitVec (8 + 8)) &&& 0xFF00).getLsbD k = _
  rw [BitVec.getLsbD_and, BitVec.getLsbD_append, BitVec.getLsbD_shiftLeft]
  interval_cases k <;> simp

theorem init (ignored : Byte) : Statement (.init ignored) := op_masked _ _

theorem start (addr : BitVec 7) (dir : Direction) : Statement (.start addr dir) :=
  op_masked _ _

theorem write (data : Byte) : Statement (.write data) := op_masked _ _

theorem readNack (ignored : Byte) : Statement (.readNack ignored) := op_masked _ _

theorem stop (addr : BitVec 7) (ignored : BitVec 1) : Statement (.stop addr ignored) :=
  op_masked _ _

end Sys2Proof.Laws.EncodeMatchesTable
end

