-- ==== Sys2Proof/Laws/Step.lean ====
section
/-! SUPPORT. What a step can do, said once: an engine step by the table of R107, an event as a function
on states, a step and a run over an agenda as that function. -/

namespace Sys2Proof.Machine

/-- The engine step that ENG.eseq names, by the table of R107. -/
def engineMove (s : State) : State :=
  match s.eng.eseq with
  | .sNone => s
  | .sInit => initStep s
  | .sStartTrig => startTrigger (Direction.ofBit (argBit0 s.eng.opArg)) s
  | .sStartPoll1 =>
    startPoll1 (argAddr s.eng.opArg) (Direction.ofBit (argBit0 s.eng.opArg)) s
  | .sStartPoll2 => startPoll2 s
  | .sWriteTrig => writeTrigger s.eng.opArg s
  | .sWritePoll => writePoll s
  | .sReadTrig => readTrigger s
  | .sReadPoll => readPoll s
  | .sStopTrig => stopTrigger s
  | .sStopPoll => stopPoll s

/-- An engine step takes the sequencer's step where the engine is busy, and nothing else. -/
theorem engineStep_eq (s : State) :
    engineStep s = .next (if s.eng.busy then engineMove s else s) := by
  unfold engineStep runningInstr engineMove
  cases hb : s.eng.busy <;> cases hq : s.eng.eseq <;>
    simp [Sequencer.opcode, decode, Except.toOption, exec, execInit, execStart,
      execWrite, execReadNack, execStop, hq]

/-- The effect of an event on the state. -/
def move (e : Event) (s : State) : State :=
  match e with
  | .host a => hostStep a s
  | .engine => if s.eng.busy then engineMove s else s
  | .biu d => biuStep d s
  | .reset => powerOnReset s

/-- Every event has a next state: the block has no fault outcome (R103). -/
theorem applyEvent_eq (e : Event) (s : State) : applyEvent e s = .next (move e s) := by
  cases e with
  | host a => rfl
  | engine => exact engineStep_eq s
  | biu d => rfl
  | reset => rfl

theorem step_eq (s : State) : step s = .next (move s.nextEvent s.advance) :=
  applyEvent_eq _ _

theorem after_eq (e : Event) (s : State) : after e s = move e s := by
  unfold after
  rw [applyEvent_eq]

/-! Everything an engine step can do, as one case for each outcome of R132, R141 to R143, R161, R162,
R165, R166, R181 and R182 -/

/-- The flag a poll state waits for (R115): the stop-pending flag clear in STOP's wait, the completion
flag in every other. -/
def awaited (s : State) : Bool :=
  match s.eng.eseq with
  | .sStopPoll => !ctrlSto s.biu.ctrl
  | _ => ctrlInt s.biu.ctrl

/-- What a poll that runs out of budget ends with (R117). -/
def expires (s : State) : State :=
  match s.eng.eseq with
  | .sStartPoll1 => fail .startTimeout s
  | .sStartPoll2 => fail .addrTimeout s
  | .sWritePoll => fail .dataTimeout s
  | .sReadPoll => fail .readTimeout s
  | .sStopPoll => stopEnds true s
  | _ => s

/-- Everything that running out of budget does, by the wait (R117). -/
theorem expires_cases (s : State) (q : s.eng.eseq.isPoll = true) :
    (s.eng.eseq = .sStartPoll1 ∧ expires s = fail .startTimeout s) ∨
    (s.eng.eseq = .sStartPoll2 ∧ expires s = fail .addrTimeout s) ∨
    (s.eng.eseq = .sWritePoll ∧ expires s = fail .dataTimeout s) ∨
    (s.eng.eseq = .sReadPoll ∧ expires s = fail .readTimeout s) ∨
    (s.eng.eseq = .sStopPoll ∧ expires s = stopEnds true s) := by
  cases h : s.eng.eseq <;> simp [h, Sequencer.isPoll] at q <;> simp [expires, h]

/-- The outcomes of one engine step. -/
inductive Moved (s : State) : State → Prop
  | none (q : s.eng.eseq = .sNone) : Moved s s
  | init (q : s.eng.eseq = .sInit) : Moved s (initStep s)
  | startTrig (q : s.eng.eseq = .sStartTrig) :
      Moved s (startTrigger (Direction.ofBit (argBit0 s.eng.opArg)) s)
  | sendAddress (q : s.eng.eseq = .sStartPoll1) (f : ctrlInt s.biu.ctrl = true)
      (c : startConfirmed s.biu.status = true) :
      Moved s (sendAddress (argAddr s.eng.opArg) (Direction.ofBit (argBit0 s.eng.opArg)) s)
  | startBadStatus (q : s.eng.eseq = .sStartPoll1) (f : ctrlInt s.biu.ctrl = true)
      (c : startConfirmed s.biu.status = false) : Moved s (fail .startBadStatus s)
  | addressSent (q : s.eng.eseq = .sStartPoll2) (f : ctrlInt s.biu.ctrl = true)
      (c : addressAcked s.eng.dir s.biu.status = true) :
      Moved s (finish .ok (some .addressSent) s)
  | addrNack (q : s.eng.eseq = .sStartPoll2) (f : ctrlInt s.biu.ctrl = true)
      (c : addressAcked s.eng.dir s.biu.status = false) : Moved s (fail .addrNack s)
  | writeTrig (q : s.eng.eseq = .sWriteTrig) : Moved s (writeTrigger s.eng.opArg s)
  | dataSent (q : s.eng.eseq = .sWritePoll) (f : ctrlInt s.biu.ctrl = true)
      (c : dataAcked s.biu.status = true) : Moved s (finish .ok (some .transferring) s)
  | dataNack (q : s.eng.eseq = .sWritePoll) (f : ctrlInt s.biu.ctrl = true)
      (c : dataAcked s.biu.status = false) : Moved s (fail .dataNack s)
  | readTrig (q : s.eng.eseq = .sReadTrig) : Moved s (readTrigger s)
  | received (q : s.eng.eseq = .sReadPoll) (f : ctrlInt s.biu.ctrl = true) :
      Moved s (finish .ok (some .transferring) (s.withHr { s.hr with rxdata := s.biu.data }))
  | stopTrig (q : s.eng.eseq = .sStopTrig) : Moved s (stopTrigger s)
  | stopped (q : s.eng.eseq = .sStopPoll) (f : ctrlSto s.biu.ctrl = false) :
      Moved s (stopEnds false s)
  /-- The last poll of a bounded wait, without the flag. -/
  | expired (q : s.eng.eseq.isPoll = true) (f : awaited s = false)
      (b : waitBudgetOf s.cfg s.eng.eseq ≠ some .unbounded)
      (c : Budget.less s.eng.cnt = .polls 0) :
      Moved s (expires (s.withEng { s.eng with cnt := .polls 0 }))
  /-- Any other poll of a bounded wait, without the flag. -/
  | counted (q : s.eng.eseq.isPoll = true) (f : awaited s = false)
      (b : waitBudgetOf s.cfg s.eng.eseq ≠ some .unbounded)
      (c : Budget.less s.eng.cnt ≠ .polls 0) :
      Moved s (s.withEng { s.eng with cnt := Budget.less s.eng.cnt })
  /-- A poll of an unbounded wait, without the flag. -/
  | spun (q : s.eng.eseq.isPoll = true) (f : awaited s = false)
      (b : waitBudgetOf s.cfg s.eng.eseq = some .unbounded) : Moved s s

/-- A bounded poll is one of the outcomes, if its success is. -/
theorem pollBounded_moved (s : State) (flag : Bool) (ok late : State → State)
    (hq : s.eng.eseq.isPoll = true) (hf : awaited s = flag)
    (hb : waitBudgetOf s.cfg s.eng.eseq ≠ some .unbounded)
    (hok : flag = true → Moved s (ok s))
    (hlate : ∀ t, t.eng.eseq = s.eng.eseq → late t = expires t) :
    Moved s (pollBounded flag ok late s) := by
  rcases pollBounded_cases s flag ok late with ⟨h, e⟩ | ⟨h, hc, e⟩ | ⟨h, hc, e⟩ <;> rw [e]
  · exact hok h
  · rw [hlate (s.withEng { s.eng with cnt := .polls 0 }) rfl]; exact .expired hq (hf.trans h) hb hc
  · exact .counted hq (hf.trans h) hb hc

/-- A poll of a parameterised wait is one of the outcomes, if its success is. -/
theorem pollWithin_moved (s : State) (b : Budget) (flag : Bool) (ok late : State → State)
    (hq : s.eng.eseq.isPoll = true) (hf : awaited s = flag)
    (hb : waitBudgetOf s.cfg s.eng.eseq = some b)
    (hok : flag = true → Moved s (ok s))
    (hlate : ∀ t, t.eng.eseq = s.eng.eseq → late t = expires t) :
    Moved s (pollWithin b flag ok late s) := by
  cases b with
  | polls n => exact pollBounded_moved s flag ok late hq hf (by simp [hb]) hok hlate
  | unbounded =>
    cases flag
    · exact .spun hq hf hb
    · exact hok rfl

/-- Every engine step is one of the outcomes of `Moved`. -/
theorem engineMove_moved (s : State) : Moved s (engineMove s) := by
  unfold engineMove
  cases q : s.eng.eseq <;> simp only
  case sNone => exact .none q
  case sInit => exact .init q
  case sStartTrig => exact .startTrig q
  case sWriteTrig => exact .writeTrig q
  case sReadTrig => exact .readTrig q
  case sStopTrig => exact .stopTrig q
  case sStartPoll1 =>
    refine pollBounded_moved s _ _ _ (by rw [q]; rfl) (by rw [awaited, q])
      (by rw [q]; simp [waitBudgetOf]) (fun f => ?_) (fun t h => by rw [expires, h, q])
    cases c : startConfirmed s.biu.status
    · exact .startBadStatus q f c
    · exact .sendAddress q f c
  case sStartPoll2 =>
    refine pollBounded_moved s _ _ _ (by rw [q]; rfl) (by rw [awaited, q])
      (by rw [q]; simp [waitBudgetOf]) (fun f => ?_) (fun t h => by rw [expires, h, q])
    cases c : addressAcked s.eng.dir s.biu.status
    · exact .addrNack q f c
    · exact .addressSent q f c
  case sWritePoll =>
    refine pollWithin_moved s _ _ _ _ (by rw [q]; rfl) (by rw [awaited, q]) (by rw [q]; rfl)
      (fun f => ?_) (fun t h => by rw [expires, h, q])
    cases c : dataAcked s.biu.status
    · exact .dataNack q f c
    · exact .dataSent q f c
  case sReadPoll =>
    exact pollWithin_moved s _ _ _ _ (by rw [q]; rfl) (by rw [awaited, q]) (by rw [q]; rfl)
      (fun f => .received q f) (fun t h => by rw [expires, h, q])
  case sStopPoll =>
    exact pollWithin_moved s _ _ _ _ (by rw [q]; rfl) (by rw [awaited, q]) (by rw [q]; rfl)
      (fun f => .stopped q (by simpa using f)) (fun t h => by rw [expires, h, q])

/-- What `triggers?` says an engine step puts on the bus is what the step logs (R111). -/
theorem engineMove_log (s : State) (hb : s.eng.busy = true) :
    (engineMove s).bk.busLog =
      s.bk.busLog ++ ((triggers? s).map (·.logged s.biu.data)).toList := by
  have hm := engineMove_moved s
  generalize engineMove s = t at hm
  cases hm
  case sendAddress q f c =>
    simp [triggers?, hb, q, f, c, sendAddress, Sent.logged, slaByte_latched]
  case startBadStatus q f c => simp [triggers?, hb, q, c, fail]
  case expired q f b c =>
    rcases expires_cases (s.withEng { s.eng with cnt := .polls 0 }) q with
      ⟨e, h⟩ | ⟨e, h⟩ | ⟨e, h⟩ | ⟨e, h⟩ | ⟨e, h⟩ <;> rw [h] <;>
      simp only [State.withEng_eng] at e <;>
      simp_all [triggers?, fail, stopEnds, awaited]
  case counted q f b c =>
    cases e : s.eng.eseq <;> simp_all [triggers?, Sequencer.isPoll, awaited]
  case spun q f b =>
    cases e : s.eng.eseq <;> simp_all [triggers?, Sequencer.isPoll, awaited]
  all_goals simp_all [triggers?, Sent.logged, initStep, startTrigger, writeTrigger, readTrigger,
    stopTrigger, fail, stopEnds]

/-! An event neither reads nor changes the agenda, so a run is a fold of `move` -/

theorem pollBounded_withAgenda (flag : Bool) (ok late : State → State) (s : State) (a : List Event)
    (hok : ∀ s, ok (s.withAgenda a) = (ok s).withAgenda a)
    (hlate : ∀ s, late (s.withAgenda a) = (late s).withAgenda a) :
    pollBounded flag ok late (s.withAgenda a) = (pollBounded flag ok late s).withAgenda a := by
  cases flag
  · have e : ∀ c, (s.withAgenda a).withEng { (s.withAgenda a).eng with cnt := c } =
        (s.withEng { s.eng with cnt := c }).withAgenda a := fun _ => rfl
    unfold pollBounded
    by_cases h : Budget.less s.eng.cnt = .polls 0 <;> simp [h]
    · exact hlate (s.withEng { s.eng with cnt := .polls 0 })
    · rfl
  · exact hok s

theorem pollWithin_withAgenda (b : Budget) (flag : Bool) (ok late : State → State) (s : State)
    (a : List Event)
    (hok : ∀ s, ok (s.withAgenda a) = (ok s).withAgenda a)
    (hlate : ∀ s, late (s.withAgenda a) = (late s).withAgenda a) :
    pollWithin b flag ok late (s.withAgenda a) = (pollWithin b flag ok late s).withAgenda a := by
  cases b with
  | polls n => exact pollBounded_withAgenda flag ok late s a hok hlate
  | unbounded => cases flag; exacts [rfl, hok s]

theorem engineMove_withAgenda (s : State) (a : List Event) :
    engineMove (s.withAgenda a) = (engineMove s).withAgenda a := by
  unfold engineMove
  cases h : s.eng.eseq <;> simp only [State.withAgenda_eng, h]
  case sStartPoll1 =>
    refine pollBounded_withAgenda _ _ _ s a (fun t => ?_) (fun _ => rfl)
    by_cases h : startConfirmed t.biu.status = true <;> simp [h] <;> rfl
  case sStartPoll2 =>
    refine pollBounded_withAgenda _ _ _ s a (fun t => ?_) (fun _ => rfl)
    by_cases h : addressAcked t.eng.dir t.biu.status = true <;> simp [h] <;> rfl
  case sWritePoll =>
    refine pollWithin_withAgenda _ _ _ _ s a (fun t => ?_) (fun _ => rfl)
    by_cases h : dataAcked t.biu.status = true <;> simp [h] <;> rfl
  case sReadPoll => exact pollWithin_withAgenda _ _ _ _ s a (fun _ => rfl) (fun _ => rfl)
  case sStopPoll => exact pollWithin_withAgenda _ _ _ _ s a (fun _ => rfl) (fun _ => rfl)
  all_goals rfl

theorem hostStep_withAgenda (x : HostAccess) (s : State) (a : List Event) :
    hostStep x (s.withAgenda a) = (hostStep x s).withAgenda a := by
  have hi : ∀ c, issueIdle c (s.withAgenda a) = (issueIdle c s).withAgenda a := by
    intro c
    unfold issueIdle
    simp only [State.withHr_hr, State.withAgenda_hr]
    cases decode c s.hr.arg with
    | error r => rfl
    | ok i => simp only [accept_eq]; rfl
  have hw : ∀ off v, hostWrite off v (s.withAgenda a) = (hostWrite off v s).withAgenda a := by
    intro off v
    unfold hostWrite
    by_cases h0 : off = 0
    · cases hb : s.eng.busy
      · simpa [h0, hb] using hi v
      · simp only [if_pos h0, State.withAgenda_eng, hb]; rfl
    · by_cases h1 : off = 1
      · simp only [if_neg h0, if_pos h1]; rfl
      · simp only [if_neg h0, if_neg h1]
  unfold hostStep
  by_cases h8 : x.width = 8
  · simp only [if_pos h8]
    cases x.op with
    | read => rfl
    | write v => exact hw _ v
  · simp only [if_neg h8]; rfl

theorem biuStep_withAgenda (d : BiuDraw) (s : State) (a : List Event) :
    biuStep d (s.withAgenda a) = (biuStep d s).withAgenda a := by
  unfold biuStep
  cases hu : s.bk.unsync <;> cases hp : s.biu.pending <;>
    simp only [State.withAgenda_bk, State.withAgenda_biu, hu, hp] <;> rfl

/-- What an event does does not depend on the agenda, and leaves it. -/
theorem move_withAgenda (e : Event) (s : State) (a : List Event) :
    move e (s.withAgenda a) = (move e s).withAgenda a := by
  cases e with
  | host x => exact hostStep_withAgenda x s a
  | engine =>
    cases hb : s.eng.busy <;> simp [move, hb, engineMove_withAgenda]
  | biu d => exact biuStep_withAgenda d s a
  | reset => rfl

/-- One step of a run of the host's interface. -/
theorem run_next (M : Host.Core) (k : Nat) (s t : M.State) (h : M.step s = .next t) :
    M.run (k + 1) s = M.run k t := by
  have : M.run (k + 1) s = match M.step s with
      | .next t => M.run k t
      | .fault r => .fault r
      | .refused r => .refused r := rfl
  rw [this, h]

/-- The effect of a list of events, in order. -/
def moves (es : List Event) (s : State) : State := es.foldl (fun s e => move e s) s

@[simp] theorem moves_nil (s : State) : moves [] s = s := rfl

@[simp] theorem moves_cons (e : Event) (es : List Event) (s : State) :
    moves (e :: es) s = moves es (move e s) := rfl

theorem moves_append (es fs : List Event) (s : State) :
    moves (es ++ fs) s = moves fs (moves es s) := by
  simp [moves, List.foldl_append]

/-- A run over an agenda always ends in a next state: the fold of its events. -/
theorem runPlan_eq (es : List Event) (s : State) :
    runPlan s es = .next ((moves es s).withAgenda []) := by
  unfold runPlan
  induction es generalizing s with
  | nil => rfl
  | cons e es ih =>
    have hstep : core.step (s.withAgenda (e :: es)) = .next ((move e s).withAgenda es) := by
      show step _ = _
      rw [step_eq, State.nextEvent_withAgenda_cons, State.advance_withAgenda_cons, move_withAgenda]
      rfl
    exact (run_next core es.length _ _ hstep).trans (ih (move e s))

end Sys2Proof.Machine
end

