-- ==== Sys2Proof/Tests/Slice0.lean ====
section
/-! SUPPORT. Small tests of the model, their expected values taken from 95_test_vectors.md and the rules
the comments name, and a witness for every statement that has hypotheses. -/

namespace Sys2Proof.Tests

open Sys2Proof.Machine

/-! Helpers: configurations and small states -/

/-- Hardened mode with BYTE_WAIT_BUDGET = 2 (95 §2.4 W9). -/
def hardened : Config := ⟨{ Params.bench with byteWaitBudget := .polls 2 }, by decide⟩

/-- STOP_WAIT_BUDGET = UNBOUNDED (95 §2.6 P-6). -/
def endlessStop : Config := ⟨{ Params.bench with stopWaitBudget := .unbounded }, by decide⟩

/-- The engine of configuration `c` busy in `q`, the BIU's flags and status as given. -/
def busyAt (c : Config) (q : Sequencer) (cnt : Budget) (ctrl status : Byte) : State :=
  let s := State.resetWith c
  (s.withEng { s.eng with busy := true, eseq := q, cnt := cnt }).withBiu
    { s.biu with ctrl := ctrl, status := status }

/-- The reset state with `es` on the agenda. -/
def idleThen (es : List Event) : State := State.reset.withAgenda es

/-- The next state, where there is one. -/
def next? (o : Host.Outcome State Fault Refusal) : Option State :=
  match o with
  | .next t => some t
  | .fault _ => none
  | .refused _ => none

/-- A view of the next state. -/
def see {α : Type} (f : State → α) (o : Host.Outcome State Fault Refusal) : Option α :=
  (next? o).map f

/-! Decoding: words written out from R70, R71, R73 and 95 §2.7 -/

/-- op 0x01, arg ignored. -/
theorem test_decode_init : decodeTableWord 16 0b0000000111111111 = some (.init 0xFF) := by decide

/-- op 0x02, arg[7:1] = 0x68, arg[0] = 1. -/
theorem test_decode_start :
    decodeTableWord 16 0b0000001011010001 = some (.start 0x68 .read) := by decide

/-- op 0x02, arg[7:1] = 0x50, arg[0] = 0. -/
theorem test_decode_start_write : decodeTableWord 16 0x02A0 = some (.start 0x50 .write) := by decide

/-- op 0x03, arg = 0xAA. -/
theorem test_decode_write : decodeTableWord 16 0b0000001110101010 = some (.write 0xAA) := by decide

/-- op 0x04, arg ignored. -/
theorem test_decode_readNack :
    decodeTableWord 16 0b0000010000000000 = some (.readNack 0x00) := by decide

/-- op 0x05, arg[7:1] = 0x50, arg[0] ignored. -/
theorem test_decode_stop : decodeTableWord 16 0b0000010110100001 = some (.stop 0x50 1) := by decide

/-- Reserved ops are rejected by name. -/
theorem test_decode_reserved :
    decodeWord 0x0000 = .error (.reservedOpcode 0x00) ∧
    decodeWord 0xFF12 = .error (.reservedOpcode 0xFF) ∧ decodeTableWord 16 0x0600 = none := by decide

/-! Ill-formed terms, one for each check (R131, R76; 95 §2.2, §2.7) -/

theorem test_illFormed_fCpu : Config.make? { Params.bench with fCpu := 0 } = none := by decide

theorem test_illFormed_fBus : Config.make? { Params.bench with fBus := 0 } = none := by decide

/-- 1,000,000 / 100,000 = 10 < 16. -/
theorem test_illFormed_quotient :
    ({ Params.bench with fCpu := 1000000, fBus := 100000 } : Params).wellFormed = false := by decide

/-- DIVISOR = 492 > 255. -/
theorem test_illFormed_divisor_large :
    ({ Params.bench with fCpu := 1000000, fBus := 1000 } : Params).wellFormed = false := by decide

/-- DIVISOR = 12 does not exceed 12. -/
theorem test_illFormed_divisor_floor :
    ({ Params.bench with divisorMin := 12 } : Params).wellFormed = false := by decide

theorem test_illFormed_waitBudget :
    ({ Params.bench with waitBudget := 0 } : Params).wellFormed = false := by decide

theorem test_illFormed_stopBudget :
    ({ Params.bench with stopWaitBudget := .polls 0 } : Params).wellFormed = false := by decide

theorem test_illFormed_byteBudget :
    ({ Params.bench with byteWaitBudget := .polls 0 } : Params).wellFormed = false := by decide

/-- `START 0x80, W`, `WRITE 0x100` and `STOP 0x80` are refused. -/
theorem test_illFormed_assembler :
    assemble (.start 0x80 .write) = none ∧ assemble (.write 0x100) = none ∧
    assemble (.stop 0x80) = none := by decide

/-- Non-zero ignored bits are legal and not the assembler's. -/
theorem test_not_canonical :
    Instr.canonical (.init 0xFF) = false ∧ Instr.canonical (.readNack 1) = false ∧
    Instr.canonical (.stop 0x50 1) = false := by decide

/-- The divisors of 95 §2.2. -/
theorem test_divisors :
    divisor Params.bench = 12 ∧ divisor { Params.bench with fBus := 100000 } = 72 ∧
    divisor { Params.bench with fCpu := 20000000 } = 17 ∧
    divisor { Params.bench with fBus := 300000 } = 18 ∧
    divisor { Params.bench with fCpu := 8000000 } = 2 := by decide

/-! The assembler (95 §2.7) -/

theorem test_assemble :
    assemble (.start 0x50 .read) = some 0x02A1 ∧ assemble (.write 0xAA) = some 0x03AA ∧
    assemble .readNack = some 0x0400 ∧ assemble (.stop 0x50) = some 0x05A0 ∧
    assemble .init = some 0x0100 := by decide

theorem test_disassemble :
    (disassemble 0x05A1).text = "STOP 0x50" ∧ (disassemble 0x02D1).text = "START 0x68, R" ∧
    (disassemble 0x0600).text = ".illegal 0x06" := by decide

theorem test_parse :
    parseLine "START    0x50, W  ; probe".toList = some (.start 0x50 .write) ∧
    parseLine "WRITE 170".toList = some (.write 0xAA) ∧
    parseLine "RESTART 0x50".toList = none := by decide

/-! ENGSTAT values of 95 §0, host accesses of §2.7, the guard of §2.1 -/

/-- Busy, Started, dir 0 reads 0x03; idle, Error, dir 1 reads 0x18. -/
theorem test_engstat :
    engstat { Engine.reset with busy := true, phase := .started } = 0x03 ∧
    engstat { Engine.reset with phase := .error, dir := .read } = 0x18 := by decide

/-- I4: the operand is the one in HR.ARG when the opcode is written. -/
theorem test_operand_latched_at_issue :
    see (fun t => (t.eng.opArg, t.eng.busy, t.eng.eseq)) (step (idleThen [.hostWrite 0 0x02])) =
      some (0x00, true, .sStartTrig) := by decide

/-- I1: a reserved op. -/
theorem test_reserved_op :
    see (fun t => (t.hr.cmd, t.hr.result, t.eng.busy)) (step (idleThen [.hostWrite 0 0x06])) =
      some (0x06, 0xFF, false) := by decide

/-- I2: issue while busy. -/
theorem test_issue_while_busy :
    see (fun t => (t.bk.refused, t.hr.cmd, t.eng.eseq))
      (step ((busyAt .bench .sWritePoll .unbounded 0x04 0xF8).withAgenda [.hostWrite 0 0x05])) =
      some (true, 0x00, .sWritePoll) := by decide

/-- A 16-bit access is refused. -/
theorem test_wide_access :
    see (fun t => (t.bk.refused, t.hr.arg)) (step (idleThen [.host ⟨16, 1, .write 0x55⟩])) =
      some (true, 0x00) := by decide

/-! The commands: one step each -/

/-- The divisor scenario of 95 §1.1. -/
theorem test_init :
    see (fun t => (t.biu.bitrate, t.hr.result, t.bk.initialized))
      (exec (.init 0xFF) (busyAt .bench .sInit (.polls 0) 0x00 0xFB)) =
      some (12, 0x00, true) := by decide

/-- P1 step 4: the address frame of START 0x50, W. -/
theorem test_start_address :
    see (fun t => (t.biu.data, t.biu.ctrl, t.eng.phase))
      (exec (.start 0x50 .write) (busyAt .bench .sStartPoll1 (.polls 1) 0xA4 0x08)) =
      some (0xA0, 0x04, .started) := by decide

/-- S11: a write acknowledge does not answer a read address. -/
theorem test_start_wrong_direction :
    see (fun t => (t.hr.result, t.eng.phase))
      (let s := busyAt .bench .sStartPoll2 (.polls 3) 0x84 0x18
       exec (.start 0x50 .read) (s.withEng { s.eng with dir := .read })) =
      some (0x04, .error) := by decide

/-- W4: a stale address code fails a data byte. -/
theorem test_write_stale_code :
    see (fun t => (t.hr.result, t.eng.phase))
      (exec (.write 0xAA) (busyAt .bench .sWritePoll .unbounded 0x84 0x18)) =
      some (0x05, .error) := by decide

/-- W9: hardened mode times out at its second poll. -/
theorem test_write_timeout :
    see (fun t => (t.hr.result, t.eng.cnt))
      (exec (.write 0xAA) (busyAt hardened .sWritePoll (.polls 1) 0x04 0xF8)) =
      some (0x06, .polls 0) := by decide

/-- N3: no status check on a receive. -/
theorem test_read_no_check :
    see (fun t => (t.hr.rxdata, t.hr.result, t.eng.phase))
      (exec (.readNack 0) (busyAt .bench .sReadPoll .unbounded 0x84 0x38)) =
      some (0xFF, 0x00, .transferring) := by decide

/-- The trigger of a receive leaves BIU.DATA and logs it (R165). -/
theorem test_read_trigger :
    see (fun t => (t.biu.ctrl, t.biu.pending, t.bk.busLog))
      (exec (.readNack 0) (busyAt .bench .sReadTrig (.polls 0) 0x84 0x40)) =
      some (0x04, .xfer, [.trig .rxNack 0xFF]) := by decide

/-- P-5: an expired STOP returns OK. -/
theorem test_stop_expired :
    see (fun t => (t.hr.result, t.eng.phase, t.bk.lastStopExpired))
      (exec (.stop 0x50 0) (busyAt .bench .sStopPoll (.polls 1) 0x14 0x28)) =
      some (0x00, .idle, true) := by decide

/-- P1 step 10: STOP's trigger. -/
theorem test_stop_trigger :
    see (fun t => (t.biu.ctrl, t.eng.cnt, t.eng.eseq))
      (exec (.stop 0x50 0) (busyAt .bench .sStopTrig (.polls 0) 0x84 0x28)) =
      some (0x14, .polls 3, .sStopPoll) := by decide

/-- A completion that draws 0x58 and 0x5A (95 §2.5 N1). -/
theorem test_completion :
    (let s := busyAt .bench .sReadPoll .unbounded 0x04 0x40
     see (fun t => (t.biu.status, t.biu.data, t.biu.ctrl, t.bk.busLog))
       (step ((s.withBiu { s.biu with pending := .xfer }).withAgenda
         [.completes 0b01011 0x5A]))) =
      some (0x58, 0x5A, 0x84, [.done 0x58 0x5A]) := by decide

/-- R-1: reset while a command runs. -/
theorem test_reset :
    see (fun t => (t.eng, t.biu, t.hr.result))
      (step ((busyAt .bench .sWritePoll .unbounded 0x04 0x18).withAgenda [.reset])) =
      some (Engine.reset, Biu.reset, 0x00) := by decide

/-- The end of a run (R120): INIT issued, run and read back. -/
theorem test_end_of_run :
    (endState? [0x0100] .writeArg State.reset
      [.hostWrite 1 0x00, .hostWrite 0 0x01, .hostRead 4, .engine, .hostRead 4]).map
        (fun t => (t.hr.result, t.biu.bitrate)) = some (0x00, 12) := by decide

/-- A CMD write refused while busy is no accepted command: no end state (R105, R120). -/
theorem test_no_end_after_refusal :
    endState? [0x0100] .writeArg (busyAt .bench .sInit (.polls 0) 0x00 0xF8)
      [.hostWrite 1 0x00, .hostWrite 0 0x01, .engine, .hostRead 4] = none := by decide

/-! Witnesses: for each statement with hypotheses, a state and operands that meet all of them together;
for a statement of several clauses, one for each clause, at a boundary of its range -/

theorem witness_InitProgramsDivisor :
    (busyAt .bench .sInit (.polls 0) 0x00 0xF8).eng.eseq = .sInit := by decide

theorem witness_StartTriggersStartCondition :
    (busyAt .bench .sStartTrig (.polls 0) 0x00 0xF8).eng.eseq = .sStartTrig := by decide

/-- Confirmed by 0x08 and by 0x10; refuted by 0x00; the last poll; the last but one. -/
theorem witness_StartFirstPoll :
    let s := busyAt .bench .sStartPoll1 (.polls 1)
    (s 0xA4 0x08).eng.eseq = .sStartPoll1 ∧
    ((s 0xA4 0x08).biu.ctrl.getLsbD 7 = true ∧ (s 0xA4 0x08).biu.status &&& 0xF8 = 0x08) ∧
    ((s 0xA4 0x10).biu.ctrl.getLsbD 7 = true ∧ (s 0xA4 0x10).biu.status &&& 0xF8 = 0x10) ∧
    ((s 0xA4 0x00).biu.ctrl.getLsbD 7 = true ∧ (s 0xA4 0x00).biu.status &&& 0xF8 ≠ 0x08 ∧
      (s 0xA4 0x00).biu.status &&& 0xF8 ≠ 0x10) ∧
    ((s 0x24 0xF8).biu.ctrl.getLsbD 7 = false ∧ (s 0x24 0xF8).eng.cnt = .polls 1) ∧
    (busyAt .bench .sStartPoll1 (.polls 2) 0x24 0xF8).eng.cnt = .polls (0 + 2) := by decide

/-- 0x18 acknowledges write and not read, 0x40 the other way round; the last poll; the last but
one. -/
theorem witness_StartSecondPoll :
    let s := busyAt .bench .sStartPoll2 (.polls 1)
    (s 0x84 0x18).eng.eseq = .sStartPoll2 ∧ (s 0x84 0x18).eng.dir = .write ∧
    ((s 0x84 0x18).biu.ctrl.getLsbD 7 = true ∧ (s 0x84 0x18).biu.status &&& 0xF8 = 0x18) ∧
    ((s 0x84 0x40).biu.ctrl.getLsbD 7 = true ∧ (s 0x84 0x40).biu.status &&& 0xF8 ≠ 0x18) ∧
    ((s 0x84 0x40).withEng { (s 0x84 0x40).eng with dir := .read }).eng.dir = .read ∧
    ((s 0x04 0x08).biu.ctrl.getLsbD 7 = false ∧ (s 0x04 0x08).eng.cnt = .polls 1) ∧
    (busyAt .bench .sStartPoll2 (.polls 2) 0x04 0x08).eng.cnt = .polls (0 + 2) := by decide

theorem witness_WriteTriggersTransmission :
    (busyAt .bench .sWriteTrig (.polls 3) 0x84 0x18).eng.eseq = .sWriteTrig := by decide

theorem witness_WritePollOutcomes :
    let s := busyAt .bench .sWritePoll .unbounded
    let h := busyAt hardened .sWritePoll
    (s 0x84 0x28).eng.eseq = .sWritePoll ∧ (h (.polls 1) 0x04 0x18).eng.eseq = .sWritePoll ∧
    ((s 0x84 0x28).biu.ctrl.getLsbD 7 = true ∧ (s 0x84 0x28).biu.status &&& 0xF8 = 0x28) ∧
    ((s 0x84 0x30).biu.ctrl.getLsbD 7 = true ∧ (s 0x84 0x30).biu.status &&& 0xF8 ≠ 0x28) ∧
    ((s 0x04 0x18).biu.ctrl.getLsbD 7 = false ∧
      (s 0x04 0x18).cfg.params.byteWaitBudget = .unbounded) ∧
    ((h (.polls 1) 0x04 0x18).biu.ctrl.getLsbD 7 = false ∧
      (h (.polls 1) 0x04 0x18).cfg.params.byteWaitBudget = .polls 2 ∧
      (h (.polls 1) 0x04 0x18).eng.cnt = .polls 1) ∧
    (h (.polls 2) 0x04 0x18).eng.cnt = .polls (0 + 2) := by decide

theorem witness_ReadTriggersReceive :
    (busyAt .bench .sReadTrig (.polls 3) 0x84 0x40).eng.eseq = .sReadTrig := by decide

theorem witness_ReadPollOutcomes :
    let s := busyAt .bench .sReadPoll .unbounded
    let h := busyAt hardened .sReadPoll
    (s 0x84 0x38).eng.eseq = .sReadPoll ∧ (h (.polls 1) 0x04 0x40).eng.eseq = .sReadPoll ∧
    (s 0x84 0x38).biu.ctrl.getLsbD 7 = true ∧
    ((s 0x04 0x40).biu.ctrl.getLsbD 7 = false ∧
      (s 0x04 0x40).cfg.params.byteWaitBudget = .unbounded) ∧
    ((h (.polls 1) 0x04 0x40).biu.ctrl.getLsbD 7 = false ∧
      (h (.polls 1) 0x04 0x40).cfg.params.byteWaitBudget = .polls 2 ∧
      (h (.polls 1) 0x04 0x40).eng.cnt = .polls 1) ∧
    (h (.polls 2) 0x04 0x40).eng.cnt = .polls (0 + 2) := by decide

theorem witness_StopTriggersStopCondition :
    (busyAt .bench .sStopTrig (.polls 3) 0x84 0x28).eng.eseq = .sStopTrig := by decide

theorem witness_StopPollOutcomes :
    let s := busyAt .bench .sStopPoll
    let e := busyAt endlessStop .sStopPoll .unbounded
    (s (.polls 1) 0x14 0x28).eng.eseq = .sStopPoll ∧ (e 0x14 0x28).eng.eseq = .sStopPoll ∧
    (s (.polls 1) 0x04 0x28).biu.ctrl.getLsbD 4 = false ∧
    ((e 0x14 0x28).biu.ctrl.getLsbD 4 = true ∧
      (e 0x14 0x28).cfg.params.stopWaitBudget = .unbounded) ∧
    ((s (.polls 1) 0x14 0x28).biu.ctrl.getLsbD 4 = true ∧
      (s (.polls 1) 0x14 0x28).cfg.params.stopWaitBudget = .polls 3 ∧
      (s (.polls 1) 0x14 0x28).eng.cnt = .polls 1) ∧
    (s (.polls 2) 0x14 0x28).eng.cnt = .polls (0 + 2) := by decide

theorem witness_ExecWhileIdleIssues :
    State.reset.eng.busy = false ∧ State.reset.eng.eseq = .sNone := by decide

/-- START 0x50, W latched at its trigger step. -/
theorem witness_StepRunsDecodedCommand :
    let b := busyAt .bench .sStartTrig (.polls 0) 0x00 0xF8
    let s := (b.withEng { b.eng with opCmd := 0x02, opArg := 0xA0 }).withAgenda [.engine]
    s.nextEvent = .engine ∧ s.eng.busy = true ∧ s.eng.eseq.opcode = some 0x02 ∧
    decode 0x02 s.eng.opArg = .ok (.start 0x50 .write) := by decide

/-- The first and the last opcode. -/
theorem witness_CommandIssueAccepts :
    ((idleThen [.hostWrite 0 0x01]).nextEvent = .hostWrite 0 0x01 ∧
      (idleThen [.hostWrite 0 0x01]).eng.busy = false) ∧
    (idleThen [.hostWrite 0 0x05]).nextEvent = .hostWrite 0 0x05 := by decide

/-- The ops next to the five, and the greatest. -/
theorem witness_ReservedOpRejected :
    ∀ c ∈ [(0x00 : Byte), 0x06, 0xFF], (idleThen [.hostWrite 0 c]).nextEvent = .hostWrite 0 c ∧
      (idleThen [.hostWrite 0 c]).eng.busy = false ∧
      c ∉ [(0x01 : Byte), 0x02, 0x03, 0x04, 0x05] := by decide

theorem witness_RefusedAccesses :
    (let s := (busyAt .bench .sWritePoll .unbounded 0x04 0x18).withAgenda [.hostWrite 0 0x05]
     s.nextEvent = .hostWrite 0 0x05 ∧ s.eng.busy = true) ∧
    ((idleThen [.host ⟨16, 0, .read⟩]).nextEvent = .host ⟨16, 0, .read⟩ ∧ (16 : Nat) ≠ 8) := by
  decide

/-- ARG, and the least and the greatest offset above it. -/
theorem witness_OtherHostWrites :
    (idleThen [.hostWrite 1 0xA0]).nextEvent = .hostWrite 1 0xA0 ∧
    ((idleThen [.hostWrite 2 0x55]).nextEvent = .hostWrite 2 0x55 ∧ 2 ≤ (2 : BitVec 3).toNat) ∧
    ((idleThen [.hostWrite 7 0x55]).nextEvent = .hostWrite 7 0x55 ∧ 2 ≤ (7 : BitVec 3).toNat) := by
  decide

theorem witness_HostReads : (idleThen [.hostRead 3]).nextEvent = .hostRead 3 := by decide

/-- A BIU step with an action `p` outstanding. -/
def biuAt (p : Pending) (ctrl : Byte) (d : BiuDraw) : State :=
  let s := State.reset
  (s.withBiu { s.biu with ctrl := ctrl, pending := p }).withAgenda [.biu d]

/-- The draws of a completion with code 0x08 and byte 0. -/
def draw08 : BiuDraw := ⟨0b00001, 0x00, false, false, .none, none⟩

theorem witness_ActionCompletion :
    ((biuAt .start 0x24 draw08).nextEvent = .biu draw08 ∧
      (biuAt .start 0x24 draw08).bk.unsync = false ∧
      (biuAt .start 0x24 draw08).biu.pending = .start) ∧
    (biuAt .xfer 0x04 draw08).biu.pending = .xfer := by decide

theorem witness_StopCompletion :
    (biuAt .stop 0x14 draw08).nextEvent = .biu draw08 ∧
    (biuAt .stop 0x14 draw08).bk.unsync = false ∧
    (biuAt .stop 0x14 draw08).biu.pending = .stop := by decide

theorem witness_DisabledStepsChangeNothing :
    ((idleThen [.engine]).nextEvent = .engine ∧ (idleThen [.engine]).eng.busy = false) ∧
    (biuAt .none 0x04 draw08).nextEvent = .biu draw08 ∧
    (biuAt .none 0x04 draw08).bk.unsync = false ∧
    (biuAt .none 0x04 draw08).biu.pending = .none := by decide

theorem witness_BiuTouchesOnlyItsOwn :
    ∃ t, (biuAt .start 0x24 draw08).nextEvent = .biu draw08 ∧
      step (biuAt .start 0x24 draw08) = .next t := ⟨_, rfl, step_eq _⟩

/-- The state of `s` with an unsynchronised BIU. -/
def unsynced (s : State) : State := s.withBk { s.bk with unsync := true }

theorem witness_UnsyncBiuDrawsAnything : (unsynced State.reset).bk.unsync = true := by decide

theorem witness_ResetGivesEveryFieldItsValue : (idleThen [.reset]).nextEvent = .reset := by decide

theorem witness_EncodeOfDecode : decodeWord 0x05A1 = .ok (.stop 0x50 1) := by decide

/-- Both clauses at the ends of the range of opcodes. -/
theorem witness_DecodeIsTotal :
    (0x0100 : Word).extractLsb' 8 8 ∈ [(0x01 : Byte), 0x02, 0x03, 0x04, 0x05] ∧
    (0x05FF : Word).extractLsb' 8 8 ∈ [(0x01 : Byte), 0x02, 0x03, 0x04, 0x05] ∧
    (0x00FF : Word).extractLsb' 8 8 ∉ [(0x01 : Byte), 0x02, 0x03, 0x04, 0x05] ∧
    (0x0600 : Word).extractLsb' 8 8 ∉ [(0x01 : Byte), 0x02, 0x03, 0x04, 0x05] := by decide

theorem witness_AssemblerAgreesWithDecoder :
    AsmLine.wellFormed (.start 0x7F .read) = true ∧ AsmLine.wellFormed (.write 0xFF) = true ∧
    AsmLine.wellFormed (.stop 0x7F) = true ∧ AsmLine.wellFormed (.start 0x80 .read) = false ∧
    AsmLine.wellFormed (.write 0x100) = false ∧ AsmLine.wellFormed (.stop 0x80) = false := by
  decide

/-! Three states that satisfy the invariant -/

/-- A STOP recovering from Error, at its poll, STO already cleared. -/
def recovering : State where
  hr := { HostRegs.reset with result := 0x04 }
  eng := { busy := true, phase := .error, dir := .write, eseq := .sStopPoll, cnt := .polls 3,
           opCmd := 0x05, opArg := 0xA0 }
  biu := { ctrl := 0x04, status := 0x20, data := 0x00, bitrate := 12, pending := .none }
  bk := { Book.reset with initialized := true, busLog := [.trig .stop 0x00, .stopDone] }
  cfg := .bench
  agenda := [.engine]
  drawn := 0

/-- A START at its second poll, the address not acknowledged. -/
def notAcked : State where
  hr := HostRegs.reset
  eng := { busy := true, phase := .started, dir := .write, eseq := .sStartPoll2, cnt := .polls 1,
           opCmd := 0x02, opArg := 0xA0 }
  biu := { ctrl := 0x84, status := 0x20, data := 0x00, bitrate := 12, pending := .none }
  bk := { Book.reset with
    initialized := true
    busLog := [.trig .start 0xFF, .done 0x08 0xFF, .trig .tx 0xA0, .done 0x20 0x00] }
  cfg := .bench
  agenda := [.engine]
  drawn := 0

/-- A STOP about to be triggered over a START that timed out (95 §2.6 P-9). -/
def overTimeout : State where
  hr := { HostRegs.reset with result := 0x01 }
  eng := { busy := true, phase := .error, dir := .write, eseq := .sStopTrig, cnt := .polls 0,
           opCmd := 0x05, opArg := 0xA0 }
  biu := { ctrl := 0x24, status := 0xF8, data := 0xFF, bitrate := 12, pending := .start }
  bk := { Book.reset with initialized := true, busLog := [.trig .start 0xFF] }
  cfg := .bench
  agenda := [.engine]
  drawn := 0

theorem recovering_inv : Inv recovering where
  busy := by decide
  started := by decide
  result := ⟨.addrNack, rfl⟩
  budget := by intro b h; cases h; exact ⟨by decide, by decide⟩
  opcode := by intro op h; cases h; rfl
  ctrlZeros := by decide
  status := by decide
  bus := fun _ => .inr (.inr ⟨rfl, rfl⟩)
  log := fun _ => rfl
  wait := fun _ => .inr ⟨rfl, rfl⟩
  rate := by decide
  contract := fun _ => trivial
  initialized := fun _ _ => rfl

theorem notAcked_inv : Inv notAcked where
  busy := by decide
  started := by decide
  result := ⟨.ok, rfl⟩
  budget := by intro b h; cases h; exact ⟨by decide, by decide⟩
  opcode := by intro op h; cases h; rfl
  ctrlZeros := by decide
  status := by decide
  bus := fun _ => .inr (.inl ⟨.inl rfl, rfl⟩)
  log := fun _ => rfl
  wait := fun _ => .inr ⟨rfl, rfl⟩
  rate := by decide
  contract := fun _ => rfl
  initialized := fun _ _ => rfl

theorem overTimeout_inv : Inv overTimeout where
  busy := by decide
  started := by decide
  result := ⟨.startTimeout, rfl⟩
  budget := by intro b h; cases h
  opcode := by intro op h; cases h; rfl
  ctrlZeros := by decide
  status := by decide
  bus := fun _ => ⟨rfl, rfl⟩
  log := fun _ => rfl
  wait := fun _ => .inr (.inl rfl)
  rate := by decide
  contract := fun _ => trivial
  initialized := fun _ _ => rfl

theorem witness_EveryStepKeepsInvariant : ∃ t, Inv recovering ∧ step recovering = .next t :=
  ⟨_, recovering_inv, step_eq _⟩

/-- The greatest and the least live counter. -/
theorem witness_InvariantGivesRuleR119 :
    Inv recovering ∧ Inv notAcked ∧ notAcked.eng.phase = .started ∧
    waitBudgetOf recovering.cfg recovering.eng.eseq = some (.polls 3) ∧
    waitBudgetOf notAcked.cfg notAcked.eng.eseq = some (.polls 3) ∧
    notAcked.bk.unsync = false :=
  ⟨recovering_inv, notAcked_inv, by decide, by decide, by decide, by decide⟩

theorem witness_ConfigurationAndStickyBits :
    let s := (idleThen [.engine]).withBk
      { Book.reset with violation := true, refused := true, initialized := true, unsync := true }
    ∃ t, step s = .next t ∧ s.nextEvent ≠ .reset ∧ s.bk.violation = true ∧
      s.bk.refused = true ∧ s.bk.initialized = true ∧ s.bk.unsync = true :=
  ⟨_, step_eq _, by decide⟩

/-- One changed field for each clause. -/
theorem witness_OnlyTheirWritersWrite :
    (∃ t, step (idleThen [.hostWrite 0 0x01]) = .next t ∧
      (idleThen [.hostWrite 0 0x01]).nextEvent ≠ .reset ∧
      t.hr.cmd ≠ (idleThen [.hostWrite 0 0x01]).hr.cmd) ∧
    (∃ t, step (idleThen [.hostWrite 1 0xA0]) = .next t ∧
      t.hr.arg ≠ (idleThen [.hostWrite 1 0xA0]).hr.arg) ∧
    (let s := (busyAt .bench .sReadPoll .unbounded 0x84 0x58).withAgenda [.engine]
     ∃ t, step s = .next t ∧ t.hr.rxdata ≠ s.hr.rxdata) ∧
    (let b := busyAt .bench .sStartTrig (.polls 0) 0x00 0xF8
     let s := (b.withEng { b.eng with opArg := 0xA1 }).withAgenda [.engine]
     ∃ t, step s = .next t ∧ t.eng.dir ≠ s.eng.dir) ∧
    (let s := (busyAt .bench .sInit (.polls 0) 0x00 0xF8).withAgenda [.engine]
     ∃ t, step s = .next t ∧ t.biu.bitrate ≠ s.biu.bitrate) :=
  ⟨⟨_, step_eq _, by decide⟩, ⟨_, step_eq _, by decide⟩, ⟨_, step_eq _, by decide⟩,
    ⟨_, step_eq _, by decide⟩, ⟨_, step_eq _, by decide⟩⟩

/-- A finish that changes the result, and a rejection. -/
theorem witness_ResultWrittenOnlyAtTheEnd :
    (∃ t, step notAcked = .next t ∧ notAcked.nextEvent ≠ .reset ∧
      t.hr.result ≠ notAcked.hr.result) ∧
    (∃ t, step (idleThen [.hostWrite 0 0xFF]) = .next t ∧
      t.hr.result ≠ (idleThen [.hostWrite 0 0xFF]).hr.result) :=
  ⟨⟨_, step_eq _, by decide⟩, ⟨_, step_eq _, by decide⟩⟩

theorem witness_ErrorLeftOnlyByStop :
    ∃ t, Inv recovering ∧ step recovering = .next t ∧ recovering.nextEvent ≠ .reset ∧
      recovering.bk.violation = false ∧ recovering.eng.phase = .error ∧ t.eng.phase ≠ .error :=
  ⟨_, recovering_inv, step_eq _, by decide⟩

theorem witness_EntryToErrorReportsFailure :
    ∃ t, step notAcked = .next t ∧ notAcked.eng.phase ≠ .error ∧ t.eng.phase = .error :=
  ⟨_, step_eq _, by decide⟩

theorem witness_NothingOutstandingAfterNack :
    ∃ t, Inv notAcked ∧ notAcked.bk.unsync = false ∧ notAcked.nextEvent = .engine ∧
      notAcked.eng.busy = true ∧ step notAcked = .next t ∧ t.eng.busy = false ∧
      t.hr.result = 0x04 :=
  ⟨_, notAcked_inv, by decide, by decide, by decide, step_eq _, by decide⟩

theorem witness_UnsyncOnlyAfterExpiredWait :
    ∃ t, Inv overTimeout ∧ step overTimeout = .next t ∧ overTimeout.bk.unsync = false ∧
      t.bk.unsync = true :=
  ⟨_, overTimeout_inv, step_eq _, by decide⟩

theorem witness_StopReleasesBus :
    ∃ t, Inv recovering ∧ recovering.nextEvent = .engine ∧ recovering.eng.eseq = .sStopPoll ∧
      step recovering = .next t ∧ t.eng.busy = false ∧ BusReleased t :=
  ⟨_, recovering_inv, by decide, by decide, step_eq _, by decide, by decide, by decide⟩

theorem witness_HostCannotDisturbRunningCommand :
    let s := recovering.withAgenda [.hostWrite 0 0x02]
    ∃ t, s.nextEvent = .host ⟨8, 0, .write 0x02⟩ ∧ s.eng.busy = true ∧ step s = .next t :=
  ⟨_, rfl, rfl, step_eq _⟩

/-- One step of each of the three commands. -/
theorem witness_IgnoredOperandHasNoEffect :
    (recovering.nextEvent = .engine ∧ recovering.eng.eseq.opcode = some 0x05 ∧
      ∃ t, step recovering = .next t) ∧
    (busyAt .bench .sInit (.polls 0) 0x00 0xF8).eng.eseq.opcode = some 0x01 ∧
    (busyAt .bench .sReadTrig (.polls 0) 0x84 0x40).eng.eseq.opcode = some 0x04 :=
  ⟨⟨rfl, rfl, _, step_eq _⟩, rfl, rfl⟩

/-! Whole waits -/

/-- START `arg` latched at its trigger step, initialized, nothing outstanding. -/
def starting (arg : Byte) : State :=
  let b := busyAt .bench .sStartTrig (.polls 0) 0x00 0xF8
  b.withEng { b.eng with opCmd := 0x02, opArg := arg }

/-- Budget 3: three engine steps, with a host access between them (95 §2.3 S2). -/
theorem witness_StartTimesOutOnSilentBiu :
    let es := [Event.engine, .hostRead 4, .engine, .hostWrite 0 0x05, .engine]
    (starting 0xA0).eng.busy = true ∧ (starting 0xA0).eng.eseq = .sStartTrig ∧ SilentBiu es ∧
    Event.reset ∉ es ∧ engineSteps es = (starting 0xA0).cfg.params.waitBudget :=
  ⟨by decide, by decide, by simp [SilentBiu, Event.isBiu], by decide, by decide⟩

theorem witness_StartAlwaysEnds :
    let es := List.replicate 7 Event.engine
    (starting 0xA0).eng.busy = true ∧ (starting 0xA0).eng.eseq = .sStartTrig ∧
    Event.reset ∉ es ∧ 1 + 2 * (starting 0xA0).cfg.params.waitBudget ≤ engineSteps es := by decide

theorem witness_BoundedStopAlwaysEnds :
    let s := busyAt .bench .sStopTrig (.polls 0) 0x84 0x28
    let es := List.replicate 4 Event.engine
    s.eng.busy = true ∧ s.eng.eseq = .sStopTrig ∧ s.cfg.params.stopWaitBudget = .polls 3 ∧
    Event.reset ∉ es ∧ 1 + 3 ≤ engineSteps es := by decide

theorem witness_HardenedByteAlwaysEnds :
    let w := busyAt hardened .sWriteTrig (.polls 0) 0x84 0x18
    let r := busyAt hardened .sReadTrig (.polls 0) 0x84 0x40
    let es := List.replicate 3 Event.engine
    (w.eng.busy = true ∧ w.cfg.params.byteWaitBudget = .polls 2 ∧ w.eng.eseq = .sWriteTrig) ∧
    (r.eng.busy = true ∧ r.cfg.params.byteWaitBudget = .polls 2 ∧ r.eng.eseq = .sReadTrig) ∧
    Event.reset ∉ es ∧ 1 + 2 ≤ engineSteps es := by decide

theorem witness_FairRunEndsStart :
    let r := fun n => (after .engine)^[n] (starting 0xA0)
    let es := fun _ : Nat => Event.engine
    InfiniteRun r es ∧ EngineFair r es ∧ (∀ n, es n ≠ .reset) ∧ (r 0).eng.busy = true ∧
    (r 0).eng.eseq = .sStartTrig :=
  ⟨fun n => (applyEvent_eq .engine _).trans (congrArg Host.Outcome.next
      ((after_eq .engine _).symm.trans
        (Function.iterate_succ_apply' (after .engine) n (starting 0xA0)).symm)),
    fun _ _ m _ => ⟨m, le_rfl, rfl⟩, by simp, by decide, by decide⟩

/-- Each of the three unbounded waits. -/
theorem witness_UnboundedWaitHangs :
    let w := busyAt .bench .sWritePoll .unbounded 0x04 0x18
    let r := busyAt .bench .sReadPoll .unbounded 0x04 0x40
    let p := busyAt endlessStop .sStopPoll .unbounded 0x14 0x28
    let es := [Event.engine, .hostRead 4]
    SilentBiu es ∧ Event.reset ∉ es ∧
    (w.eng.busy = true ∧ w.eng.eseq = .sWritePoll ∧
      w.cfg.params.byteWaitBudget = .unbounded ∧ w.biu.ctrl.getLsbD 7 = false) ∧
    (r.eng.busy = true ∧ r.eng.eseq = .sReadPoll ∧
      r.cfg.params.byteWaitBudget = .unbounded ∧ r.biu.ctrl.getLsbD 7 = false) ∧
    (p.eng.busy = true ∧ p.eng.eseq = .sStopPoll ∧
      p.cfg.params.stopWaitBudget = .unbounded ∧ p.biu.ctrl.getLsbD 4 = true) :=
  ⟨by simp [SilentBiu, Event.isBiu], by decide⟩

theorem witness_ResultsStayUntilNextCommand :
    let es := [Event.hostWrite 1 0x55, .biu draw08, .engine]
    State.reset.eng.busy = false ∧ Event.reset ∉ es ∧ (∀ e ∈ es, Event.isCmdWrite e = false) := by
  decide

/-- START 0x50, W: trigger, a completion with `first`, address frame, a completion with `code`, and the
last poll (95 §2.3 S1 and S8). -/
def startPlan (first code : BitVec 5) : List Event :=
  [.engine, .completes first 0x00, .engine, .completes code 0x00, .engine]

/-- The states and what is remembered along the plan, both completions being taken in time. -/
theorem startPlan_responsive :
    ∀ first ∈ [(0b00001 : BitVec 5), 0b00010], ∀ code ∈ [(0b00011 : BitVec 5), 0b00100],
      Responsive 3 (starting 0xA0) (startPlan first code) := by
  intro first hf code hc
  simp only [List.mem_cons, List.not_mem_nil, or_false] at hf hc
  rcases hf with rfl | rfl <;> rcases hc with rfl | rfl <;>
    exact ⟨by decide, nofun, by decide, nofun, by decide, trivial⟩

/-- The draws of the plan satisfy `P` if its two completions do: the first answers the START
condition, the second the SLA byte. -/
theorem startPlan_draws (P : Option Sent → Byte → Prop) :
    ∀ first ∈ [(0b00001 : BitVec 5), 0b00010], ∀ code ∈ [(0b00011 : BitVec 5), 0b00100],
      P (some .start) (codeByte first) → P (some (.sla (slaByte 0x50 .write))) (codeByte code) →
      Draws P (starting 0xA0) (startPlan first code) := by
  intro first hf code hc h1 h2
  simp only [List.mem_cons, List.not_mem_nil, or_false] at hf hc
  rcases hf with rfl | rfl <;> rcases hc with rfl | rfl <;>
    exact ⟨nofun, fun _ h => by cases h; exact h1, nofun, fun _ h => by cases h; exact h2, nofun,
      trivial⟩

theorem witness_StartSucceedsOnAckingSlave :
    let s := starting 0xA0
    let es := startPlan 0b00001 0b00011
    ∃ t, s.eng.busy = true ∧ s.eng.eseq = .sStartTrig ∧ s.eng.opArg = slaByte 0x50 .write ∧
      s.bk.unsync = false ∧ s.biu.pending = .none ∧ Event.reset ∉ es ∧
      (∀ e ∈ es, Event.isCmdWrite e = false) ∧
      Responsive s.cfg.params.waitBudget s es ∧ AckSlave 0x50 s es ∧
      runPlan s es = .next t ∧ t.eng.busy = false :=
  ⟨_, by decide, by decide, by decide, by decide, by decide, by decide, by decide,
    startPlan_responsive _ (by decide) _ (by decide),
    startPlan_draws _ _ (by decide) _ (by decide) ⟨by decide, by decide, by decide, nofun⟩
      ⟨by decide, by decide, by decide, nofun⟩,
    runPlan_eq _ _, by decide⟩

/-- Confirmed by 0x08 and by 0x10. -/
theorem witness_StartReportsAbsentSlave :
    let s := starting 0xA0
    ∀ first ∈ [(0b00001 : BitVec 5), 0b00010],
    let es := startPlan first 0b00100
    ∃ t, s.eng.busy = true ∧ s.eng.eseq = .sStartTrig ∧ s.eng.opArg = slaByte 0x50 .write ∧
      s.bk.unsync = false ∧ s.biu.pending = .none ∧ Event.reset ∉ es ∧
      (∀ e ∈ es, Event.isCmdWrite e = false) ∧
      Responsive s.cfg.params.waitBudget s es ∧ AbsentSlave 0x50 s es ∧
      Draws (fun sent code => sent = some .start → code = 0x08 ∨ code = 0x10) s es ∧
      runPlan s es = .next t ∧ t.eng.busy = false := by
  intro s first hf
  have hd : ∀ f ∈ [(0b00001 : BitVec 5), 0b00010], codeByte f = 0x08 ∨ codeByte f = 0x10 := by decide
  have ht : ∀ f ∈ [(0b00001 : BitVec 5), 0b00010],
      Event.reset ∉ startPlan f 0b00100 ∧
      (∀ e ∈ startPlan f 0b00100, Event.isCmdWrite e = false) ∧
      ((moves (startPlan f 0b00100) (starting 0xA0)).withAgenda []).eng.busy = false := by decide
  exact ⟨_, by decide, by decide, by decide, by decide, by decide, (ht first hf).1,
    (ht first hf).2.1, startPlan_responsive first hf _ (by decide),
    startPlan_draws _ first hf _ (by decide) ⟨nofun, nofun⟩ ⟨fun _ => by decide, nofun⟩,
    startPlan_draws _ first hf _ (by decide) (fun _ => hd first hf) nofun,
    runPlan_eq _ _, (ht first hf).2.2⟩

/-- The premise asks what an SLA byte asks of a completion only after an SLA byte: a WRITE whose START
timed out is answered as a data byte, though its trigger follows the late completion of the START. -/
theorem test_late_completion_is_not_sla :
    let b := busyAt .bench .sWriteTrig (.polls 0) 0xA4 0x08
    let s := b.withEng { b.eng with opArg := 0xA0, phase := .error }
    (Watch.fresh.next s .engine).sent = some (.data 0xA0) := by decide

/-- An SLA byte of an unsynchronised BIU is one too, and no step of that BIU completes it. -/
theorem test_unsync_sla :
    let s := unsynced (starting 0xA0)
    let t := unsynced (busyAt .bench .sStartPoll1 (.polls 1) 0xA4 0x10)
    (Watch.fresh.next s .engine).sent = some .start ∧
    (Watch.fresh.next t .engine).sent = some (.sla t.eng.opArg) ∧
    completes (after .engine t) (.biu draw08) = false := by decide

/-- Acknowledged with 0x28, not acknowledged with 0x30 (95 §2.4 W1, W2). -/
theorem witness_WriteReportsSlavesAnswer :
    let s := busyAt .bench .sWriteTrig (.polls 0) 0x84 0x18
    let es := fun code => [Event.engine, .completes code 0x00, .engine]
    (∃ t, s.eng.busy = true ∧ s.eng.eseq = .sWriteTrig ∧
      s.cfg.params.byteWaitBudget = .unbounded ∧ s.bk.unsync = false ∧ s.biu.pending = .none ∧
      Event.reset ∉ es 0b00101 ∧ (∀ e ∈ es 0b00101, Event.isCmdWrite e = false) ∧
      (∀ d, Event.biu d ∈ es 0b00101 → (codeByte d.code = 0x28 ↔ true = true)) ∧
      runPlan s (es 0b00101) = .next t ∧ t.eng.busy = false) ∧
    (∃ t, Event.reset ∉ es 0b00110 ∧ (∀ e ∈ es 0b00110, Event.isCmdWrite e = false) ∧
      (∀ d, Event.biu d ∈ es 0b00110 → (codeByte d.code = 0x28 ↔ false = true)) ∧
      runPlan s (es 0b00110) = .next t ∧ t.eng.busy = false) := by
  have hd : ∀ (code : BitVec 5) (d : BiuDraw),
      Event.biu d ∈ [Event.engine, .completes code 0x00, .engine] → d.code = code := by
    intro code d h
    simp only [List.mem_cons, List.not_mem_nil, or_false, reduceCtorEq, false_or] at h
    cases h
    rfl
  exact ⟨⟨_, by decide, by decide, by decide, by decide, by decide, by decide, by decide,
      fun d h => by rw [hd _ d h]; decide, runPlan_eq _ _, by decide⟩,
    ⟨_, by decide, by decide, fun d h => by rw [hd _ d h]; decide, runPlan_eq _ _, by decide⟩⟩

end Sys2Proof.Tests
end

section
/-! SUPPORT. What a host access, an engine step and a BIU step can do to the host registers, ENG.dir and
BIU.BITRATE, said once for each agent. -/

namespace Sys2Proof

/-- Only an op outside R73 is rejected (R74). -/
theorem decode_error_op {op arg : Byte} {r : Reject} (h : decode op arg = .error r) :
    op ∉ [(0x01 : Byte), 0x02, 0x03, 0x04, 0x05] := by
  intro hmem
  simp only [List.mem_cons, List.not_mem_nil, or_false] at hmem
  rcases hmem with rfl | rfl | rfl | rfl | rfl <;> simp [decode] at h

namespace Machine

/-- A step answers the one state its event leads to (R101, R103). -/
theorem step_next_iff {s t : State} : step s = .next t ↔ t = move s.nextEvent s.advance := by
  rw [step_eq, Host.Outcome.next.injEq, eq_comm]

/-! Acceptance (R104) -/

section
variable (c : Byte) (i : Instr) (s : State)

@[simp] theorem accept_hr : (accept c i s).hr = s.hr := by rw [accept_eq]; rfl
@[simp] theorem accept_eng : (accept c i s).eng =
    { s.eng with opCmd := c, opArg := s.hr.arg, busy := true, eseq := firstStep i } := by
  rw [accept_eq]; rfl
@[simp] theorem accept_biu : (accept c i s).biu = s.biu := by rw [accept_eq]; rfl
@[simp] theorem accept_busLog : (accept c i s).bk.busLog = s.bk.busLog := by rw [accept_eq]; rfl

end

/-! Host accesses (R27, R53, R58, R74, R104, R105) -/

/-- A write to a read-only or reserved offset is ignored (R27, R57, R58). -/
theorem hostWrite_ignored (off : BitVec 3) (v : Byte) (s : State) (h : 2 ≤ off.toNat) :
    hostWrite off v s = s := by
  rcases hostWrite_cases s off v with ⟨rfl, -⟩ | ⟨rfl, -⟩ | ⟨rfl, -⟩ | ⟨-, -, e⟩
  · exact absurd h (by decide)
  · exact absurd h (by decide)
  · exact absurd h (by decide)
  · exact e

/-- The outcomes of one host access. -/
inductive HostMoved (s : State) : HostAccess → State → Prop
  | otherWidth (a : HostAccess) (w : a.width ≠ 8) : HostMoved s a (refuse s)
  | read (off : BitVec 3) : HostMoved s ⟨8, off, .read⟩ s
  | cmdRefused (c : Byte) (b : s.eng.busy = true) : HostMoved s ⟨8, 0, .write c⟩ (refuse s)
  | cmdRejected (c : Byte) (r : Reject) (b : s.eng.busy = false)
      (d : decode c s.hr.arg = .error r) :
      HostMoved s ⟨8, 0, .write c⟩ (s.withHr { s.hr with cmd := c, result := 0xFF })
  | cmdAccepted (c : Byte) (i : Instr) (b : s.eng.busy = false) (d : decode c s.hr.arg = .ok i) :
      HostMoved s ⟨8, 0, .write c⟩ (accept c i (s.withHr { s.hr with cmd := c }))
  | argWritten (v : Byte) : HostMoved s ⟨8, 1, .write v⟩ (s.withHr { s.hr with arg := v })
  | ignored (off : BitVec 3) (v : Byte) (h0 : off ≠ 0) (h1 : off ≠ 1) :
      HostMoved s ⟨8, off, .write v⟩ s

/-- Every host access is one of the outcomes of `HostMoved`. -/
theorem hostStep_moved (a : HostAccess) (s : State) : HostMoved s a (hostStep a s) := by
  obtain ⟨width, off, op⟩ := a
  rcases hostStep_cases s ⟨width, off, op⟩ with ⟨w, e⟩ | ⟨w, o, e⟩ | ⟨v, w, o, e⟩ <;> rw [e]
  · exact .otherWidth _ w
  · cases w; cases o
    exact .read off
  · cases w; cases o
    rcases hostWrite_cases s off v with ⟨rfl, b, e⟩ | ⟨rfl, b, e⟩ | ⟨rfl, e⟩ | ⟨h0, h1, e⟩ <;> rw [e]
    · exact .cmdRefused v b
    · rcases issueIdle_cases s v with ⟨⟨r, d⟩, e⟩ | ⟨i, d, e⟩ <;> rw [e]
      · exact .cmdRejected v r b d
      · exact .cmdAccepted v i b d
    · exact .argWritten v
    · exact .ignored off v h0 h1

/-- No host access touches the BIU or the bus log, HR.RXDATA or ENG.dir. -/
theorem hostStep_frame (a : HostAccess) (s : State) :
    (hostStep a s).biu = s.biu ∧ (hostStep a s).bk.busLog = s.bk.busLog ∧
    (hostStep a s).hr.rxdata = s.hr.rxdata ∧ (hostStep a s).eng.dir = s.eng.dir := by
  have moved := hostStep_moved a s
  generalize hostStep a s = t at moved
  cases moved <;> simp [refuse]

/-- While busy, a host access changes at most HR.ARG and the bookkeeping (R105). -/
theorem hostStep_busy (a : HostAccess) (s : State) (busy : s.eng.busy = true) :
    (hostStep a s).eng = s.eng ∧ (hostStep a s).hr.cmd = s.hr.cmd ∧
    (hostStep a s).hr.result = s.hr.result := by
  have moved := hostStep_moved a s
  generalize hostStep a s = t at moved ⊢
  cases moved
  case cmdRejected c r b d => simp [busy] at b
  case cmdAccepted c i b d => simp [busy] at b
  all_goals simp [refuse]

/-- HR.CMD takes the value of a CMD write made while idle (R21, R104, R105). -/
theorem hostStep_cmd (a : HostAccess) (s : State)
    (changed : (hostStep a s).hr.cmd ≠ s.hr.cmd) :
    a = ⟨8, 0, .write (hostStep a s).hr.cmd⟩ ∧ s.eng.busy = false := by
  have moved := hostStep_moved a s
  generalize hostStep a s = t at changed moved ⊢
  cases moved
  case cmdRejected c r b d => exact ⟨rfl, b⟩
  case cmdAccepted c i b d => simpa using b
  all_goals simp [refuse] at changed

/-- HR.ARG takes the value of an ARG write (R22). -/
theorem hostStep_arg (a : HostAccess) (s : State)
    (changed : (hostStep a s).hr.arg ≠ s.hr.arg) :
    a = ⟨8, 1, .write (hostStep a s).hr.arg⟩ := by
  have moved := hostStep_moved a s
  generalize hostStep a s = t at changed moved ⊢
  cases moved
  case argWritten v => rfl
  all_goals simp [refuse] at changed

/-- A host access changes HR.RESULT only by the rejection of a reserved op (R23, R74). -/
theorem hostStep_result (a : HostAccess) (s : State)
    (changed : (hostStep a s).hr.result ≠ s.hr.result) :
    ∃ c, a = ⟨8, 0, .write c⟩ ∧ s.eng.busy = false ∧ (hostStep a s).hr.result = 0xFF ∧
      c ∉ [(0x01 : Byte), 0x02, 0x03, 0x04, 0x05] := by
  have moved := hostStep_moved a s
  generalize hostStep a s = t at changed moved ⊢
  cases moved
  case cmdRejected c r b d => exact ⟨c, rfl, b, rfl, decode_error_op d⟩
  all_goals simp [refuse] at changed

/-! BIU steps (R112 to R114) -/

/-- The BIU touches no host register, no engine state and not BIU.BITRATE. -/
theorem biuStep_frame (d : BiuDraw) (s : State) :
    (biuStep d s).hr = s.hr ∧ (biuStep d s).eng = s.eng ∧
    (biuStep d s).biu.bitrate = s.biu.bitrate := by
  rcases biuStep_cases s d with ⟨-, e⟩ | ⟨-, -, e⟩ | ⟨-, -, e⟩ | ⟨-, -, e⟩ <;> rw [e] <;>
    exact ⟨rfl, rfl, rfl⟩

/-! Engine steps (R106, R107) -/

/-- Running out of budget ends the command; nothing but the bookkeeping changes besides (R117). -/
theorem expires_eq_finish (s : State) (q : s.eng.eseq.isPoll = true) :
    ∃ r p b, expires s = finish r (some p) (s.withBk b) := by
  rcases expires_cases s q with ⟨-, e⟩ | ⟨-, e⟩ | ⟨-, e⟩ | ⟨-, e⟩ | ⟨-, e⟩
  case inr.inr.inr.inr => exact ⟨_, _, _, e⟩
  all_goals exact ⟨_, _, s.bk, e⟩

@[simp] theorem expires_dir (s : State) : (expires s).eng.dir = s.eng.dir := by
  unfold expires; split <;> rfl

@[simp] theorem expires_bitrate (s : State) : (expires s).biu.bitrate = s.biu.bitrate := by
  unfold expires; split <;> rfl

/-- Everything an engine step does to the host registers: nothing, a finish with its result, or the
finish of a READ_NACK that saw its flag, with the received byte (R106, R166). -/
theorem engineMove_hr_cases (s : State) :
    (engineMove s).hr = s.hr ∨
    ((engineMove s).eng.busy = false ∧ ∃ r, (engineMove s).hr = { s.hr with result := r }) ∨
    ((engineMove s).eng.busy = false ∧ s.eng.eseq = .sReadPoll ∧ ctrlInt s.biu.ctrl = true ∧
      (engineMove s).hr = { s.hr with result := 0x00, rxdata := s.biu.data }) := by
  have moved := engineMove_moved s
  generalize engineMove s = t at moved
  cases moved
  case expired q f b c =>
    obtain ⟨r, p, k, e⟩ := expires_eq_finish (s.withEng { s.eng with cnt := .polls 0 }) q
    rw [e]
    exact .inr (.inl ⟨rfl, _, rfl⟩)
  case received q f => exact .inr (.inr ⟨rfl, q, f, rfl⟩)
  case init | startBadStatus | addressSent | addrNack | dataSent | dataNack | stopped =>
    exact .inr (.inl ⟨rfl, _, rfl⟩)
  all_goals exact .inl rfl

/-- An engine step leaves HR.CMD and HR.ARG, which the host alone writes (R21, R22). -/
theorem engineMove_cmd_arg (s : State) :
    (engineMove s).hr.cmd = s.hr.cmd ∧ (engineMove s).hr.arg = s.hr.arg := by
  rcases engineMove_hr_cases s with e | ⟨-, r, e⟩ | ⟨-, -, -, e⟩ <;> rw [e] <;> exact ⟨rfl, rfl⟩

/-- An engine step sets ENG.dir only by START's trigger, from the latched operand (R32, R141). -/
theorem engineMove_dir_cases (s : State) :
    (engineMove s).eng.dir = s.eng.dir ∨
    (s.eng.eseq = .sStartTrig ∧
      (engineMove s).eng.dir = Direction.ofBit (argBit0 s.eng.opArg)) := by
  have moved := engineMove_moved s
  generalize engineMove s = t at moved
  cases moved
  case startTrig q => exact .inr ⟨q, rfl⟩
  case expired q f b c => exact .inl (expires_dir _)
  all_goals exact .inl rfl

/-- An engine step programs BIU.BITRATE only as INIT's step (R43, R132). -/
theorem engineMove_bitrate_cases (s : State) :
    (engineMove s).biu.bitrate = s.biu.bitrate ∨ s.eng.eseq = .sInit := by
  have moved := engineMove_moved s
  generalize engineMove s = t at moved
  cases moved
  case init q => exact .inr q
  case expired q f b c => exact .inl (expires_bitrate _)
  all_goals exact .inl rfl

/-! HR.ENGSTAT (R25) -/

/-- Where the four fields of HR.ENGSTAT lie in the byte, whatever they hold. -/
theorem engstat_fields (dir : BitVec 1) (phase : BitVec 3) (busy : Bool) :
    ((0 : BitVec 3) ++ dir ++ phase ++ BitVec.ofBool busy).getLsbD 0 = busy ∧
    ((0 : BitVec 3) ++ dir ++ phase ++ BitVec.ofBool busy).extractLsb' 1 3 = phase ∧
    ((0 : BitVec 3) ++ dir ++ phase ++ BitVec.ofBool busy).getLsbD 4 = dir.getLsbD 0 ∧
    ((0 : BitVec 3) ++ dir ++ phase ++ BitVec.ofBool busy).extractLsb' 5 3 = 0 := by
  revert dir phase busy
  decide

end Machine
end Sys2Proof
end

section
/-! PROOFS. The statements on the host registers of 10_state.md and their writers. -/

namespace Sys2Proof.Machine

theorem move_engine {s : State} (busy : s.eng.busy = true) : move .engine s = engineMove s :=
  if_pos busy

theorem move_engine_idle {s : State} (idle : s.eng.busy = false) : move .engine s = s :=
  if_neg (by simp [idle])

/-- Each change an event makes to one of the five registers names the register's writer. -/
theorem move_writers (e : Event) (s : State) (noReset : e ≠ .reset) :
    ((move e s).hr.cmd ≠ s.hr.cmd → e = .hostWrite 0 (move e s).hr.cmd ∧ s.eng.busy = false) ∧
    ((move e s).hr.arg ≠ s.hr.arg → e = .hostWrite 1 (move e s).hr.arg) ∧
    ((move e s).hr.rxdata ≠ s.hr.rxdata → e = .engine ∧ s.eng.eseq = .sReadPoll ∧
      s.biu.ctrl.getLsbD 7 = true ∧ (move e s).hr.rxdata = s.biu.data) ∧
    ((move e s).eng.dir ≠ s.eng.dir → e = .engine ∧ s.eng.eseq = .sStartTrig ∧
      (move e s).eng.dir.bit = s.eng.opArg.extractLsb' 0 1) ∧
    ((move e s).biu.bitrate ≠ s.biu.bitrate → e = .engine ∧ s.eng.eseq = .sInit) := by
  cases e with
  | reset => exact absurd rfl noReset
  | host a =>
    obtain ⟨biu, -, rxdata, dir⟩ := hostStep_frame a s
    refine ⟨fun h => ?_, fun h => congrArg _ (hostStep_arg a s h), fun h => absurd rxdata h,
      fun h => absurd dir h, fun h => absurd (congrArg Biu.bitrate biu) h⟩
    obtain ⟨ha, busy⟩ := hostStep_cmd a s h
    exact ⟨congrArg _ ha, busy⟩
  | biu d =>
    obtain ⟨hr, eng, bitrate⟩ := biuStep_frame d s
    simp [move, hr, eng, bitrate]
  | engine =>
    cases busy : s.eng.busy
    · simp [move_engine_idle busy]
    · rw [move_engine busy]
      obtain ⟨cmd, arg⟩ := engineMove_cmd_arg s
      refine ⟨fun h => absurd cmd h, fun h => absurd arg h, fun h => ?_, fun h => ?_, fun h => ?_⟩
      · rcases engineMove_hr_cases s with e | ⟨-, r, e⟩ | ⟨-, q, f, e⟩
        · simp [e] at h
        · simp [e] at h
        · exact ⟨rfl, q, f, by rw [e]⟩
      · obtain ⟨q, e⟩ := (engineMove_dir_cases s).resolve_left h
        exact ⟨rfl, q, by rw [e, Direction.bit_ofBit]; rfl⟩
      · exact ⟨rfl, (engineMove_bitrate_cases s).resolve_left h⟩

/-- An event that changes HR.RESULT is an engine step that ends the running command, or the rejection
of a reserved op. -/
theorem move_result_writer (e : Event) (s : State) (noReset : e ≠ .reset)
    (changed : (move e s).hr.result ≠ s.hr.result) :
    (e = .engine ∧ s.eng.busy = true ∧ (move e s).eng.busy = false) ∨
    (∃ c, e = .hostWrite 0 c ∧ s.eng.busy = false ∧ (move e s).hr.result = 0xFF ∧
      c ∉ [(0x01 : Byte), 0x02, 0x03, 0x04, 0x05]) := by
  cases e with
  | reset => exact absurd rfl noReset
  | host a =>
    obtain ⟨c, rfl, rejected⟩ := hostStep_result a s changed
    exact .inr ⟨c, rfl, rejected⟩
  | biu d => exact absurd (congrArg HostRegs.result (biuStep_frame d s).1) changed
  | engine =>
    cases busy : s.eng.busy
    · rw [move_engine_idle busy] at changed
      exact absurd rfl changed
    · rw [move_engine busy] at changed ⊢
      rcases engineMove_hr_cases s with kept | ⟨ended, -⟩ | ⟨ended, -⟩
      · exact absurd (congrArg HostRegs.result kept) changed
      · exact .inl ⟨rfl, rfl, ended⟩
      · exact .inl ⟨rfl, rfl, ended⟩

/-- Settles O38, agent by agent: the step is the move of its event. -/
theorem onlyTheirWritersWrite : Obligations.OnlyTheirWritersWrite := by
  unfold Obligations.OnlyTheirWritersWrite
  intro s t hstep noReset
  obtain rfl := step_next_iff.mp hstep
  simpa using move_writers s.nextEvent s.advance noReset

/-- Settles O39: the writer of HR.RESULT, event by event, at the step's own event. -/
theorem resultWrittenOnlyAtTheEnd : Obligations.ResultWrittenOnlyAtTheEnd := by
  unfold Obligations.ResultWrittenOnlyAtTheEnd
  intro s t hstep noReset changed
  obtain rfl := step_next_iff.mp hstep
  rw [← State.advance_hr s] at changed
  rw [← State.advance_eng s]
  exact move_result_writer s.nextEvent s.advance noReset changed

/-- Settles O45: while busy a CMD write is refused, and no other access reaches the engine. -/
theorem hostCannotDisturbRunningCommand : Obligations.HostCannotDisturbRunningCommand := by
  unfold Obligations.HostCannotDisturbRunningCommand
  intro s t a hev busy hstep
  obtain rfl := step_next_iff.mp hstep
  rw [hev]
  obtain ⟨biu, busLog, rxdata, -⟩ := hostStep_frame a s.advance
  obtain ⟨eng, cmd, result⟩ := hostStep_busy a s.advance (by simpa using busy)
  simp [move, biu, busLog, rxdata, eng, cmd, result]

/-- Settles O17: ARG is the one writable offset besides CMD. -/
theorem otherHostWrites : Obligations.OtherHostWrites := by
  unfold Obligations.OtherHostWrites
  refine ⟨fun s v hev => ?_, fun s off v hev hoff => ?_⟩
  · rw [step_eq, hev, ← State.advance_hr]
    rfl
  · rw [step_eq, hev]
    exact congrArg Host.Outcome.next (hostWrite_ignored off v s.advance hoff)

/-- Settles O19, from the layout of any four fields and the codes of R31 and R82. -/
theorem engstatLayout : Obligations.EngstatLayout := by
  unfold Obligations.EngstatLayout
  intro s
  obtain ⟨busy, phase, dir, reserved⟩ := engstat_fields s.eng.dir.bit s.eng.phase.code s.eng.busy
  refine ⟨busy, phase.trans ?_, dir.trans ?_, reserved⟩
  · cases s.eng.phase <;> rfl
  · cases s.eng.dir <;> rfl

end Sys2Proof.Machine
end

section
/-! PROOFS. The statements of 20_memory.md: the reads of the eight offsets, what a BIU step leaves, and
how long the results of a command can be read. -/

namespace Sys2Proof.Machine

/-! Reads (R50, R56, R58) -/

section
variable (s : State)

theorem hostRead_cmd : hostRead 0 s = s.hr.cmd := rfl
theorem hostRead_arg : hostRead 1 s = s.hr.arg := rfl
theorem hostRead_result : hostRead 2 s = s.hr.result := rfl
theorem hostRead_rxdata : hostRead 3 s = s.hr.rxdata := rfl
theorem hostRead_engstat : hostRead 4 s = engstat s.eng := rfl
theorem hostRead_bitrate : hostRead 5 s = s.biu.bitrate := rfl
theorem hostRead_reserved6 : hostRead 6 s = 0x00 := rfl
theorem hostRead_reserved7 : hostRead 7 s = 0x00 := rfl

@[simp] theorem move_hostRead (off : BitVec 3) : move (.hostRead off) s = s := rfl

end

/-- Settles O18, offset by offset; the step of a read is the move that changes nothing. -/
theorem hostReads : Obligations.HostReads := by
  unfold Obligations.HostReads
  refine ⟨fun s => ⟨hostRead_cmd s, hostRead_arg s, hostRead_result s, hostRead_rxdata s,
    hostRead_engstat s, hostRead_bitrate s, hostRead_reserved6 s, hostRead_reserved7 s⟩,
    fun s off hev => ?_⟩
  rw [step_eq, hev, move_hostRead]

/-! What the BIU leaves of its own registers (R112 to R114) -/

/-- A new status code leaves bits 2:0 of BIU.STATUS (R41). -/
theorem statusWithCode_low (status : Byte) (code : BitVec 5) :
    statusWithCode status code &&& 0x07 = status &&& 0x07 := by
  revert status code; decide

/-- Writing INT leaves every other bit of BIU.CTRL, and so all but INT and STO (R40). -/
theorem ctrlWithInt_others (c : Byte) (v : Bool) : ctrlWithInt c v &&& 0x6F = c &&& 0x6F := by
  revert c v; decide

/-- Writing STO leaves every other bit of BIU.CTRL, and so all but INT and STO (R40). -/
theorem ctrlWithSto_others (c : Byte) (v : Bool) : ctrlWithSto c v &&& 0x6F = c &&& 0x6F := by
  revert c v; decide

/-- A BIU step leaves the low bits of BIU.STATUS and every bit of BIU.CTRL but INT and STO. -/
theorem biuStep_bits (d : BiuDraw) (s : State) :
    (biuStep d s).biu.status &&& 0x07 = s.biu.status &&& 0x07 ∧
    (biuStep d s).biu.ctrl &&& 0x6F = s.biu.ctrl &&& 0x6F := by
  rcases biuStep_cases s d with ⟨-, e⟩ | ⟨-, -, e⟩ | ⟨-, -, e⟩ | ⟨-, -, e⟩ <;> rw [e]
  · exact ⟨statusWithCode_low _ _, (ctrlWithSto_others _ _).trans (ctrlWithInt_others _ _)⟩
  · exact ⟨rfl, rfl⟩
  · exact ⟨statusWithCode_low _ _, ctrlWithInt_others _ _⟩
  · exact ⟨rfl, ctrlWithSto_others _ _⟩

/-- A BIU step keeps the configuration, and of the bookkeeping it only lengthens the log. -/
theorem biuStep_cfg_bk (d : BiuDraw) (s : State) :
    (biuStep d s).cfg = s.cfg ∧
    ∃ es, (biuStep d s).bk = { s.bk with busLog := s.bk.busLog ++ es } := by
  rcases biuStep_cases s d with ⟨-, e⟩ | ⟨-, -, e⟩ | ⟨-, -, e⟩ | ⟨-, -, e⟩ <;> rw [e]
  · exact ⟨rfl, _, rfl⟩
  · exact ⟨rfl, [], by rw [List.append_nil]⟩
  · exact ⟨rfl, _, rfl⟩
  · exact ⟨rfl, _, rfl⟩

/-- Settles O22: the frame of each of the four BIU steps. -/
theorem biuTouchesOnlyItsOwn : Obligations.BiuTouchesOnlyItsOwn := by
  unfold Obligations.BiuTouchesOnlyItsOwn
  intro s t d hev hstep
  obtain rfl := step_next_iff.mp hstep
  rw [hev]
  obtain ⟨hr, eng, bitrate⟩ := biuStep_frame d s.advance
  obtain ⟨status, ctrl⟩ := biuStep_bits d s.advance
  obtain ⟨cfg, es, bk⟩ := biuStep_cfg_bk d s.advance
  rw [State.advance_biu] at bitrate status ctrl
  rw [State.advance_bk] at bk
  exact ⟨hr.trans s.advance_hr, eng.trans s.advance_eng, cfg.trans s.advance_cfg, bitrate, status,
    ctrl, es, bk⟩

/-! The results of the last command (R62) -/

/-- What every event of a list keeps, the list keeps. -/
theorem moves_keep {P : State → Prop} {es : List Event} {s : State}
    (kept : ∀ e ∈ es, ∀ t, P t → P (move e t)) (start : P s) : P (moves es s) := by
  induction es generalizing s with
  | nil => exact start
  | cons e es ih =>
    rw [moves_cons]
    exact ih (fun f hf => kept f (List.mem_cons_of_mem e hf)) (kept e List.mem_cons_self s start)

/-- Everything the host reads of a command's outcome is in `t` as it was in `s`: the engine, and
HR.RESULT and HR.RXDATA. -/
structure SameResults (s t : State) : Prop where
  eng : t.eng = s.eng
  result : t.hr.result = s.hr.result
  rxdata : t.hr.rxdata = s.hr.rxdata

theorem SameResults.refl (s : State) : SameResults s s := ⟨rfl, rfl, rfl⟩

theorem SameResults.trans {s t u : State} (st : SameResults s t) (tu : SameResults t u) :
    SameResults s u :=
  ⟨tu.eng.trans st.eng, tu.result.trans st.result, tu.rxdata.trans st.rxdata⟩

/-- The host reads the same results at offsets 2, 3 and 4 (R50). -/
theorem SameResults.hostRead_eq {s t : State} (same : SameResults s t) :
    hostRead 2 t = hostRead 2 s ∧ hostRead 3 t = hostRead 3 s ∧ hostRead 4 t = hostRead 4 s := by
  rw [hostRead_result, hostRead_result, hostRead_rxdata, hostRead_rxdata, hostRead_engstat,
    hostRead_engstat, same.eng]
  exact ⟨same.result, same.rxdata, rfl⟩

/-- A host access that is no CMD write keeps the results. -/
theorem hostStep_sameResults {a : HostAccess} (s : State)
    (noCmd : Event.isCmdWrite (.host a) = false) : SameResults s (hostStep a s) := by
  have moved := hostStep_moved a s
  generalize hostStep a s = t at moved
  cases moved
  case cmdRejected c r b d => simp [Event.isCmdWrite] at noCmd
  case cmdAccepted c i b d => simp [Event.isCmdWrite] at noCmd
  all_goals exact ⟨rfl, rfl, rfl⟩

/-- While idle, an event keeps the results unless it is a CMD write or reset: the engine is not enabled,
and the BIU reaches neither the engine nor the host registers. -/
theorem move_sameResults {e : Event} {s : State} (idle : s.eng.busy = false) (noReset : e ≠ .reset)
    (noCmd : Event.isCmdWrite e = false) : SameResults s (move e s) := by
  cases e with
  | reset => exact absurd rfl noReset
  | host a => exact hostStep_sameResults s noCmd
  | engine => rw [move_engine_idle idle]; exact .refl s
  | biu d =>
    obtain ⟨hr, eng, -⟩ := biuStep_frame d s
    exact ⟨eng, congrArg HostRegs.result hr, congrArg HostRegs.rxdata hr⟩

/-- Idle with the results of `s` is kept by every event but a CMD write and reset, so by every list of
them. -/
theorem moves_sameResults {es : List Event} {s : State} (idle : s.eng.busy = false)
    (noReset : Event.reset ∉ es) (noCmd : ∀ e ∈ es, Event.isCmdWrite e = false) :
    SameResults s (moves es s) := by
  refine moves_keep (fun e he t same => ?_) (.refl s)
  have idle' : t.eng.busy = false := by rw [same.eng, idle]
  exact same.trans (move_sameResults idle' (fun h => noReset (h ▸ he)) (noCmd e he))

/-- Settles O53: the run is the fold of its events, and what the host reads is the same results. -/
theorem resultsStayUntilNextCommand : Obligations.ResultsStayUntilNextCommand := by
  unfold Obligations.ResultsStayUntilNextCommand
  intro s es idle noReset noCmd
  have same : SameResults s ((moves es s).withAgenda []) :=
    (moves_sameResults idle noReset noCmd).trans ⟨rfl, rfl, rfl⟩
  exact ⟨_, runPlan_eq es s, by rw [same.eng, idle], same.hostRead_eq⟩

end Sys2Proof.Machine
end

section
/-! SUPPORT. The decoder on an opcode and its operand apart, what its two outcomes say of the op,
the lines the assembler accepts, the contract check by opcode, a command issued while idle, and the
engine steps that do not look at the latched operand. -/

namespace Sys2Proof

/-! The decoder (R70, R73 to R75) -/

/-- A command word decodes by its op with its arg as the operand (R70). -/
@[simp] theorem decodeWord_append (op arg : Byte) : decodeWord (op ++ arg) = decode op arg := by
  rw [decodeWord, word_op_append, word_arg_append]

/-- The opcode and the operand of a command decode to it: both parts of a START or STOP operand are
read back. -/
theorem decode_own_op_arg (i : Instr) : decode i.op i.arg = .ok i := by
  rw [decode_op_arg]
  cases i with
  | init ignored => rfl
  | start addr dir => simp [Instr.arg]
  | write data => rfl
  | readNack ignored => rfl
  | stop addr ignored => simp [Instr.arg]

@[simp] theorem decodeWord_encode (i : Instr) : decodeWord (encode i) = .ok i :=
  (decodeWord_append i.op i.arg).trans (decode_own_op_arg i)

/-- An op outside R73 is rejected by name, whatever the operand (R74). -/
theorem decode_reserved {op : Byte} (reserved : op ∉ [(0x01 : Byte), 0x02, 0x03, 0x04, 0x05])
    (arg : Byte) : decode op arg = .error (.reservedOpcode op) := by
  simp only [List.mem_cons, List.not_mem_nil, or_false, not_or] at reserved
  obtain ⟨notInit, notStart, notWrite, notReadNack, notStop⟩ := reserved
  rw [decode, if_neg notInit, if_neg notStart, if_neg notWrite, if_neg notReadNack, if_neg notStop]

/-- An op of R73 decodes to a command, whatever the operand. -/
theorem decode_known {op : Byte} (known : op ∈ [(0x01 : Byte), 0x02, 0x03, 0x04, 0x05])
    (arg : Byte) : ∃ i, decode op arg = .ok i := by
  cases h : decode op arg with
  | ok i => exact ⟨i, rfl⟩
  | error r => exact absurd known (decode_error_op h)

/-! The assembler (R76) -/

/-- The word of a START is the one the assembler puts together (R72, R76). -/
theorem encode_start (addr : BitVec 7) (dir : Direction) :
    encode (.start addr dir) =
      (0x0200 ||| BitVec.ofNat 16 (addr.toNat <<< 1) ||| dir.bit.zeroExtend 16) := by
  revert addr; cases dir <;> decide

theorem encode_write (data : Byte) :
    encode (.write data) = (0x0300 ||| BitVec.ofNat 16 data.toNat) := by
  revert data; decide

theorem encode_stop (addr : BitVec 7) :
    encode (.stop addr 0) = (0x0500 ||| BitVec.ofNat 16 (addr.toNat <<< 1)) := by
  revert addr; decide

/-- The operands of a command's line are in range: its fields are as wide as the encoding. -/
theorem Instr.line_wellFormed (i : Instr) : i.line.wellFormed = true := by
  cases i with
  | init ignored => rfl
  | start addr dir => exact decide_eq_true (Nat.le_of_lt_succ addr.isLt)
  | write data => exact decide_eq_true (Nat.le_of_lt_succ data.isLt)
  | readNack ignored => rfl
  | stop addr ignored => exact decide_eq_true (Nat.le_of_lt_succ addr.isLt)

/-- The line of a command whose ignored bits are zero assembles to the command's word. -/
theorem assemble_line {i : Instr} (canonical : i.canonical = true) :
    assemble i.line = some (encode i) := by
  unfold assemble
  rw [if_pos i.line_wellFormed]
  cases i with
  | init ignored =>
    obtain rfl : ignored = 0 := of_decide_eq_true canonical
    rfl
  | start addr dir => exact congrArg some (encode_start addr dir).symm
  | write data => exact congrArg some (encode_write data).symm
  | readNack ignored =>
    obtain rfl : ignored = 0 := of_decide_eq_true canonical
    rfl
  | stop addr ignored =>
    obtain rfl : ignored = 0 := of_decide_eq_true canonical
    exact congrArg some (encode_stop addr).symm

/-- Every line in range is the line of a command whose ignored bits are zero. -/
theorem AsmLine.exists_canonical {l : AsmLine} (wf : l.wellFormed = true) :
    ∃ i : Instr, i.canonical = true ∧ i.line = l := by
  cases l with
  | init => exact ⟨.init 0, rfl, rfl⟩
  | start addr dir =>
    have fits : addr < 2 ^ 7 := Nat.lt_succ_of_le (of_decide_eq_true wf)
    exact ⟨.start (BitVec.ofNatLT addr fits) dir, rfl, rfl⟩
  | write byte =>
    have fits : byte < 2 ^ 8 := Nat.lt_succ_of_le (of_decide_eq_true wf)
    exact ⟨.write (BitVec.ofNatLT byte fits), rfl, rfl⟩
  | readNack => exact ⟨.readNack 0, rfl, rfl⟩
  | stop addr =>
    have fits : addr < 2 ^ 7 := Nat.lt_succ_of_le (of_decide_eq_true wf)
    exact ⟨.stop (BitVec.ofNatLT addr fits) 0, rfl, rfl⟩

theorem disassemble_encode (i : Instr) : disassemble (encode i) = .line i.line := by
  rw [disassemble, decodeWord_encode]

namespace Machine

/-! Issue (R76, R104, R210) -/

/-- The contract check by command is the table of R210 by opcode. -/
theorem contractOk_op (i : Instr) (s : State) :
    contractOk i.op s = inContract i s.eng.phase s.eng.dir s.bk.initialized := by
  cases i <;> rfl

/-- Where the sequencer names no step, executing a command is its issue (log entry 4). -/
theorem exec_eq_issue (i : Instr) {s : State} (noStep : s.eng.eseq = .sNone) :
    exec i s = .next (issue i s) := by
  cases i <;> simp [exec, execInit, execStart, execWrite, execReadNack, execStop, noStep]

/-- A CMD write while idle whose op is reserved is rejected (R74). -/
theorem hostWrite_cmd_reserved {s : State} {c : Byte} (idle : s.eng.busy = false)
    (reserved : c ∉ [(0x01 : Byte), 0x02, 0x03, 0x04, 0x05]) :
    hostWrite 0 c s = s.withHr { s.hr with cmd := c, result := 0xFF } := by
  rw [hostWrite, if_pos rfl, if_neg (by simp [idle]), issueIdle]
  simp only [State.withHr_hr, decode_reserved reserved]
  rfl

/-- A CMD write while idle whose op and HR.ARG decode to a command is accepted (R104). -/
theorem hostWrite_cmd_accepted {s : State} {c : Byte} {i : Instr} (idle : s.eng.busy = false)
    (decodes : decode c s.hr.arg = .ok i) :
    hostWrite 0 c s = accept c i (s.withHr { s.hr with cmd := c }) := by
  rw [hostWrite, if_pos rfl, if_neg (by simp [idle]), issueIdle]
  simp only [State.withHr_hr, decodes]

/-- A command issued while idle is accepted with its own operand (R76, R104). -/
theorem issue_idle (i : Instr) {s : State} (idle : s.eng.busy = false) :
    issue i s = accept i.op i (s.withHr { s.hr with arg := i.arg, cmd := i.op }) :=
  hostWrite_cmd_accepted (s := s.withHr { s.hr with arg := i.arg }) idle (decode_own_op_arg i)

/-! The latched operand (R35, R71) -/

/-- The state with another operand latched. -/
def State.withOpArg (s : State) (b : Byte) : State :=
  s.withEng { s.eng with opArg := b }

@[simp] theorem State.withOpArg_eng (s : State) (b : Byte) :
    (s.withOpArg b).eng = { s.eng with opArg := b } := rfl

@[simp] theorem State.nextEvent_withOpArg (s : State) (b : Byte) :
    (s.withOpArg b).nextEvent = s.nextEvent := rfl

theorem State.advance_withOpArg (s : State) (b : Byte) :
    (s.withOpArg b).advance = s.advance.withOpArg b := by
  obtain ⟨hr, eng, biu, bk, cfg, agenda, drawn⟩ := s
  cases agenda <;> rfl

/-- A poll does not look at the latched operand, if neither of the wait's ends does. -/
theorem pollWithin_withOpArg (budget : Budget) (flag : Bool) (ok late : State → State) (s : State)
    (b : Byte)
    (hok : ∀ t, ok (t.withOpArg b) = (ok t).withOpArg b)
    (hlate : ∀ t, late (t.withOpArg b) = (late t).withOpArg b) :
    pollWithin budget flag ok late (s.withOpArg b) =
      (pollWithin budget flag ok late s).withOpArg b := by
  cases flag with
  | true => simpa using hok s
  | false =>
    cases budget with
    | unbounded => rfl
    | polls n =>
      rw [pollWithin_polls, pollWithin_polls]
      unfold pollBounded
      by_cases spent : Budget.less s.eng.cnt = .polls 0 <;>
        simp only [State.withOpArg_eng, State.withEng_eng, spent, reduceIte, Bool.false_eq_true]
      · exact hlate (s.withEng { s.eng with cnt := .polls 0 })
      · rfl

/-- No step of INIT, READ_NACK or STOP looks at the latched operand (R71, R164, R180). -/
theorem engineMove_withOpArg (s : State) (b : Byte)
    (ignores : s.eng.eseq.opcode = some 0x01 ∨ s.eng.eseq.opcode = some 0x04 ∨
      s.eng.eseq.opcode = some 0x05) :
    engineMove (s.withOpArg b) = (engineMove s).withOpArg b := by
  unfold engineMove
  cases q : s.eng.eseq <;> simp only [State.withOpArg_eng, q]
  case sReadPoll => exact pollWithin_withOpArg _ _ _ _ s b (fun _ => rfl) (fun _ => rfl)
  case sStopPoll => exact pollWithin_withOpArg _ _ _ _ s b (fun _ => rfl) (fun _ => rfl)
  case sStartTrig | sStartPoll1 | sStartPoll2 | sWriteTrig | sWritePoll =>
    simp [q, Sequencer.opcode] at ignores
  all_goals rfl

end Machine
end Sys2Proof
end

section
/-! PROOFS. The statements on the encoding of 30_encoding.md: the decoder and the assembler, a
command word issued or rejected, and the operand bits a command ignores. -/

namespace Sys2Proof.Machine

/-- Settles O27: op and arg of the word are those of the command, and they decode to it. -/
theorem decodeOfEncode : Obligations.DecodeOfEncode := by
  unfold Obligations.DecodeOfEncode
  exact decodeWord_encode

/-- Settles O29: whether the op is known decides the outcome. -/
theorem decodeIsTotal : Obligations.DecodeIsTotal := by
  unfold Obligations.DecodeIsTotal
  exact fun w => ⟨fun known => decode_known known w.arg,
    fun reserved => decode_reserved reserved w.arg⟩

/-- Settles O30: each word that decodes is the word of the command given for it. -/
theorem decodedWords : Obligations.DecodedWords := by
  unfold Obligations.DecodedWords
  exact ⟨decodeWord_encode (.init 0xFF), decodeWord_encode (.start 0x68 .read),
    decodeWord_encode (.write 0xAA), decodeWord_encode (.readNack 0x00),
    decodeWord_encode (.stop 0x50 1), decode_reserved (op := 0x06) (by decide) 0x00⟩

/-- Settles O31: a line in range is the line of a command with its ignored bits zero, and that
command's word is what it assembles to. -/
theorem assemblerAgreesWithDecoder : Obligations.AssemblerAgreesWithDecoder := by
  unfold Obligations.AssemblerAgreesWithDecoder
  refine fun l => ⟨fun wf => ?_, fun outOfRange => if_neg (by simp [outOfRange])⟩
  obtain ⟨i, canonical, rfl⟩ := AsmLine.exists_canonical wf
  exact ⟨encode i, i, assemble_line canonical, decodeWord_encode i, canonical, disassemble_encode i⟩

/-- Settles O15: the step is the CMD write, which is rejected. -/
theorem reservedOpRejected : Obligations.ReservedOpRejected := by
  unfold Obligations.ReservedOpRejected
  intro s c hev idle reserved
  have rejected : move (.hostWrite 0 c) s.advance = _ :=
    hostWrite_cmd_reserved (s := s.advance) (by simpa using idle) reserved
  rw [step_eq, hev, rejected, State.advance_hr]
  rfl

/-- Settles O11: exec is the issue, the issue an acceptance, and the contract check the table of
R210. -/
theorem execWhileIdleIssues : Obligations.ExecWhileIdleIssues := by
  unfold Obligations.ExecWhileIdleIssues
  intro i s idle noStep
  rw [exec_eq_issue i noStep, issue_idle i idle, accept_eq, contractOk_op]
  cases i <;> rfl

/-- Settles O46: the engine's step commutes with latching another operand. -/
theorem ignoredOperandHasNoEffect : Obligations.IgnoredOperandHasNoEffect := by
  unfold Obligations.IgnoredOperandHasNoEffect
  intro s t b hev ignores hstep
  obtain rfl := step_next_iff.mp hstep
  show step (s.withOpArg b) = .next ((move s.nextEvent s.advance).withOpArg b)
  rw [step_eq, State.nextEvent_withOpArg, State.advance_withOpArg, hev]
  cases busy : s.advance.eng.busy
  · rw [move_engine_idle busy, move_engine_idle (by simpa using busy)]
  · rw [move_engine busy, move_engine (by simpa using busy),
      engineMove_withOpArg s.advance b (by simpa using ignores)]

end Sys2Proof.Machine
end

section
/-! SUPPORT. What each agent does to the configuration and the bookkeeping, said once. -/

namespace Sys2Proof.Machine

@[simp] theorem expires_cfg (s : State) : (expires s).cfg = s.cfg := by
  unfold expires; split <;> rfl

@[simp] theorem expires_biu (s : State) : (expires s).biu = s.biu := by
  unfold expires; split <;> rfl

/-- Running out of budget changes at most BK.last_stop_expired of the bookkeeping (R182). -/
theorem expires_bk (s : State) : ∃ x, (expires s).bk = { s.bk with lastStopExpired := x } := by
  unfold expires; split <;> exact ⟨_, rfl⟩

/-- A host access changes of the bookkeeping only the violation and refused bits, and sets them if
anything; the configuration stays (R46, R100). -/
theorem hostStep_cfg_bk (a : HostAccess) (s : State) :
    (hostStep a s).cfg = s.cfg ∧
    ∃ v r, (hostStep a s).bk =
      { s.bk with violation := s.bk.violation || v, refused := s.bk.refused || r } := by
  have moved := hostStep_moved a s
  generalize hostStep a s = t at moved
  cases moved
  case otherWidth | cmdRefused => exact ⟨rfl, false, true, by simp [refuse]⟩
  case cmdAccepted c i b d =>
    rw [accept_eq]
    exact ⟨rfl, !inContract i s.eng.phase s.eng.dir s.bk.initialized, false, by simp⟩
  all_goals exact ⟨rfl, false, false, by simp⟩

/-- A poll that does not see its flag puts nothing on the bus. -/
theorem triggers?_eq_none (s : State) (q : s.eng.eseq.isPoll = true) (f : awaited s = false) :
    triggers? s = none := by
  cases e : s.eng.eseq <;> simp_all [triggers?, Sequencer.isPoll, awaited]

/-- An engine step keeps the configuration and the violation and refused bits; INIT's step alone
sets BK.initialized, and a trigger over an outstanding action alone sets BK.unsync (R111, R132). -/
theorem engineMove_cfg_bk (s : State) (busy : s.eng.busy = true) :
    (engineMove s).cfg = s.cfg ∧
    (engineMove s).bk.violation = s.bk.violation ∧ (engineMove s).bk.refused = s.bk.refused ∧
    ((engineMove s).bk.initialized = true ↔ s.bk.initialized = true ∨ s.eng.eseq = .sInit) ∧
    ((engineMove s).bk.unsync = true ↔
      s.bk.unsync = true ∨ (triggers? s).isSome = true ∧ s.biu.pending ≠ .none) := by
  have moved := engineMove_moved s
  generalize engineMove s = t at moved
  have notInit : s.eng.eseq.isPoll = true → s.eng.eseq ≠ .sInit := fun poll q => by
    simp [q, Sequencer.isPoll] at poll
  cases moved
  case expired q f b c =>
    obtain ⟨x, bk⟩ := expires_bk (s.withEng { s.eng with cnt := .polls 0 })
    simp [bk, triggers?_eq_none s q f, notInit q]
  case counted q f b c => simp [triggers?_eq_none s q f, notInit q]
  case spun q f b => simp [triggers?_eq_none s q f, notInit q]
  case startTrig | sendAddress | writeTrig =>
    simp_all [triggers?, startTrigger, sendAddress, writeTrigger, State.withEng, State.withBiu]
  all_goals simp_all [triggers?, initStep, readTrigger, stopTrigger, fail, stopEnds]

end Sys2Proof.Machine
end

section
/-! SUPPORT. The invariant of R119 in three parts: the bus and the engine, each kept by every event
on its own, and what the engine's waits say of the bus, which needs the other two. -/

namespace Sys2Proof.Machine

/-! The bus: R119 (e) and (f) with the log, which look at neither host registers nor engine -/

/-- The part of the invariant on the BIU and its log. -/
structure BusInv (s : State) : Prop where
  ctrlZeros : s.biu.ctrl &&& 0x4B = 0
  status : s.biu.status &&& 0x07 = 0
  bus : s.bk.unsync = false → BusAgrees s
  log : s.bk.unsync = false → replay s.bk.busLog = some s.biu.pending
  rate : s.biu.bitrate = if s.bk.initialized then divisorByte s.cfg.params else 0x00

/-- The bus part of the invariant is on the BIU, its log, two bits of the bookkeeping and the
configuration alone. -/
theorem BusInv.congr {s t : State} (inv : BusInv s) (biu : t.biu = s.biu)
    (log : t.bk.busLog = s.bk.busLog) (unsync : t.bk.unsync = s.bk.unsync)
    (initialized : t.bk.initialized = s.bk.initialized) (cfg : t.cfg = s.cfg) : BusInv t where
  ctrlZeros := by rw [biu]; exact inv.ctrlZeros
  status := by rw [biu]; exact inv.status
  bus := by
    have bus := inv.bus
    unfold BusAgrees at bus ⊢
    rwa [biu, log, unsync]
  log := by rw [biu, log, unsync]; exact inv.log
  rate := by rw [biu, initialized, cfg]; exact inv.rate

/-- A trigger keeps the bus part, whatever byte was put into BIU.DATA before it: it leaves the BIU
synchronised only where nothing was outstanding (R111). -/
theorem BusInv.trigger {s : State} (inv : BusInv s) (b : Byte) {v : Byte} {k : TrigKind}
    (action : (v, k) ∈ [(tStart, TrigKind.start), (tXfer, .tx), (tXfer, .rxNack), (tStop, .stop)]) :
    BusInv (biuTrigger v k (s.withBiu { s.biu with data := b })) := by
  have log : s.bk.unsync = false → s.biu.pending = .none → replay s.bk.busLog = some .none :=
    fun sync none => none ▸ inv.log sync
  have status := inv.status
  have rate := inv.rate
  simp only [List.mem_cons, Prod.mk.injEq, List.not_mem_nil, or_false] at action
  rcases action with ⟨rfl, rfl⟩ | ⟨rfl, rfl⟩ | ⟨rfl, rfl⟩ | ⟨rfl, rfl⟩ <;>
    exact ⟨by simp, status, fun _ => by simp [BusAgrees],
      fun sync => by simp_all [State.withBiu, replay_append, replayEvent], rate⟩

/-- Where the low bits of a status are 0, a code written into it stands there as the log holds it
(R41, R112). -/
theorem statusWithCode_eq_codeByte {status : Byte} (low : status &&& 0x07 = 0) (code : BitVec 5) :
    statusWithCode status code = codeByte code := by
  rw [statusWithCode_eq, low, codeByte_eq]
  exact BitVec.or_zero

/-- What BIU.CTRL holds where an action is outstanding. -/
theorem BusAgrees.ctrl {s : State} (bus : BusAgrees s) :
    (s.biu.pending = .start → s.biu.ctrl = 0x24) ∧ (s.biu.pending = .xfer → s.biu.ctrl = 0x04) ∧
    (s.biu.pending = .stop → s.biu.ctrl = 0x14) := by
  unfold BusAgrees at bus
  cases p : s.biu.pending <;> simp_all

/-- A completion leaves BIU.CTRL as its last log event has it, and BIU.STATUS and BIU.DATA as logged
(R112, R113). -/
theorem biuStep_busAgrees {s : State} (sync : s.bk.unsync = false) (bus : BusAgrees s)
    (status : s.biu.status &&& 0x07 = 0) (d : BiuDraw) : BusAgrees (biuStep d s) := by
  obtain ⟨start, xfer, stop⟩ := bus.ctrl
  rcases biuStep_cases s d with ⟨u, e⟩ | ⟨-, p, e⟩ | ⟨-, p, e⟩ | ⟨-, p, e⟩ <;> rw [e]
  · simp [sync] at u
  · exact bus
  · rcases p with p | p <;>
      simp [BusAgrees, actionCompletes, statusWithCode_eq_codeByte status, start, xfer, p] <;>
      decide
  · simp [BusAgrees, stopCompletes, stop p]; decide

/-- A completion is logged as that of the action outstanding (R112, R113). -/
theorem biuStep_replay {s : State} (sync : s.bk.unsync = false)
    (log : replay s.bk.busLog = some s.biu.pending) (d : BiuDraw) :
    replay (biuStep d s).bk.busLog = some (biuStep d s).biu.pending := by
  rcases biuStep_cases s d with ⟨u, e⟩ | ⟨-, p, e⟩ | ⟨-, p, e⟩ | ⟨-, p, e⟩ <;> rw [e]
  · simp [sync] at u
  · exact log
  · rcases p with p | p <;> rw [p] at log <;>
      simp [actionCompletes, replay_append, log, replayEvent]
  · rw [p] at log
    simp [stopCompletes, replay_append, log, replayEvent]

/-- A BIU step keeps the bus part, synchronised or not. -/
theorem biuStep_busInv {s : State} (inv : BusInv s) (d : BiuDraw) : BusInv (biuStep d s) := by
  obtain ⟨status, ctrl⟩ := biuStep_bits d s
  obtain ⟨cfg, es, bk⟩ := biuStep_cfg_bk d s
  obtain ⟨-, -, bitrate⟩ := biuStep_frame d s
  have unsync : (biuStep d s).bk.unsync = s.bk.unsync := by rw [bk]
  have within : ∀ c : Byte, c &&& 0x4B = (c &&& 0x6F) &&& 0x4B := by decide
  exact {
    ctrlZeros := by rw [within, ctrl, ← within, inv.ctrlZeros]
    status := status.trans inv.status
    bus := fun sync => biuStep_busAgrees (unsync ▸ sync) (inv.bus (unsync ▸ sync)) inv.status d
    log := fun sync => biuStep_replay (unsync ▸ sync) (inv.log (unsync ▸ sync)) d
    rate := by rw [bitrate, bk, cfg]; exact inv.rate }

/-- INIT's step keeps the bus part: the prescaler it clears is 0, and it programs DIVISOR (R132). -/
theorem initStep_busInv {s : State} (inv : BusInv s) : BusInv (initStep s) := by
  have kept : statusWithoutPrescaler s.biu.status = s.biu.status := by
    have clear : ∀ b : Byte, b &&& 0x07 = 0 → statusWithoutPrescaler b = b := by decide
    exact clear _ inv.status
  obtain ⟨ctrlZeros, status, bus, log, rate⟩ := inv
  refine ⟨ctrlZeros, by simpa [initStep, kept] using status, ?_, log, rfl⟩
  simpa [BusAgrees, initStep, kept] using bus

/-- An engine step keeps the bus part: it is INIT's step, a trigger, or leaves the BIU. -/
theorem engineMove_busInv {s : State} (inv : BusInv s) : BusInv (engineMove s) := by
  have moved := engineMove_moved s
  generalize engineMove s = t at moved
  cases moved
  case init q => exact initStep_busInv inv
  case startTrig q => exact (inv.trigger s.biu.data (by decide)).congr rfl rfl rfl rfl rfl
  case sendAddress q f c => exact (inv.trigger _ (by decide)).congr rfl rfl rfl rfl rfl
  case writeTrig q => exact (inv.trigger _ (by decide)).congr rfl rfl rfl rfl rfl
  case readTrig q => exact (inv.trigger s.biu.data (by decide)).congr rfl rfl rfl rfl rfl
  case stopTrig q => exact (inv.trigger s.biu.data (by decide)).congr rfl rfl rfl rfl rfl
  case expired q f b c =>
    obtain ⟨x, bk⟩ := expires_bk (s.withEng { s.eng with cnt := .polls 0 })
    exact inv.congr (by simp) (by simp [bk]) (by simp [bk]) (by simp [bk]) (by simp)
  all_goals exact inv.congr rfl rfl rfl rfl rfl

theorem resetWith_busInv (c : Config) : BusInv (State.resetWith c) where
  ctrlZeros := (by decide : (0x00 : Byte) &&& 0x4B = 0)
  status := (by decide : (0xF8 : Byte) &&& 0x07 = 0)
  bus := fun _ => .inl ⟨rfl, rfl⟩
  log := fun _ => rfl
  rate := rfl

/-- Every event keeps the bus part of the invariant. -/
theorem move_busInv {s : State} (inv : BusInv s) (e : Event) : BusInv (move e s) := by
  cases e with
  | host a =>
    obtain ⟨biu, log, -, -⟩ := hostStep_frame a s
    obtain ⟨cfg, v, r, bk⟩ := hostStep_cfg_bk a s
    exact inv.congr (t := hostStep a s) biu log (by rw [bk]) (by rw [bk]) cfg
  | engine =>
    cases busy : s.eng.busy
    · rwa [move_engine_idle busy]
    · rw [move_engine busy]; exact engineMove_busInv inv
  | biu d => exact biuStep_busInv inv d
  | reset => exact (resetWith_busInv s.cfg).congr rfl rfl rfl rfl rfl

end Sys2Proof.Machine
end

section
/-! SUPPORT. The engine's part of the invariant, what the waits say of the bus, and the three parts
together. -/

namespace Sys2Proof.Machine

/-! The engine: R119 (a) to (d) with the caller contract, which do not look at the BIU -/

/-- The part of the invariant on the engine, HR.RESULT and the caller contract. -/
structure EngInv (s : State) : Prop where
  busy : s.eng.busy = true ↔ s.eng.eseq ≠ .sNone
  started : s.eng.phase = .started ↔ s.eng.eseq = .sStartPoll2
  result : ∃ r : ResultCode, s.hr.result = r.byte
  budget : ∀ b, waitBudgetOf s.cfg s.eng.eseq = some b → Live b s.eng.cnt
  opcode : ∀ op, s.eng.eseq.opcode = some op → s.eng.opCmd = op
  contract : s.bk.violation = false → ContractHolds s
  initialized : s.bk.violation = false → s.eng.phase ≠ .idle → s.bk.initialized = true

/-- The engine part is on the engine, HR.RESULT, two bits of the bookkeeping and the configuration
alone. -/
theorem EngInv.congr {s t : State} (inv : EngInv s) (eng : t.eng = s.eng)
    (result : t.hr.result = s.hr.result) (cfg : t.cfg = s.cfg)
    (violation : t.bk.violation = false → s.bk.violation = false)
    (initialized : t.bk.initialized = s.bk.initialized) : EngInv t where
  busy := by rw [eng]; exact inv.busy
  started := by rw [eng]; exact inv.started
  result := by rw [result]; exact inv.result
  budget := by rw [eng, cfg]; exact inv.budget
  opcode := by rw [eng]; exact inv.opcode
  contract := fun ok => by
    have contract := inv.contract (violation ok)
    unfold ContractHolds at contract ⊢
    rwa [eng, initialized]
  initialized := fun ok => by rw [eng, initialized]; exact inv.initialized (violation ok)

/-- A counter just loaded is live: every budget of a configuration is UNBOUNDED or at least 1
(R131). -/
theorem live_loaded (c : Config) (q : Sequencer) {n : Budget} (loaded : waitBudgetOf c q = some n) :
    ∀ b, waitBudgetOf c q = some b → Live b n := by
  obtain ⟨-, -, -, -, -, wait, stop, byte⟩ := (Params.wellFormed_iff c.params).mp c.wf
  have live : ∀ b : Budget, b.wellFormed = true → Live b b := fun b wf => by
    cases b with
    | polls n => exact ⟨of_decide_eq_true wf, le_rfl⟩
    | unbounded => trivial
  intro b budget
  obtain rfl : b = n := Option.some.inj (budget.symm.trans loaded)
  cases q <;> cases loaded
  case sStartPoll1 | sStartPoll2 => exact ⟨wait, le_rfl⟩
  case sWritePoll | sReadPoll => exact live _ byte
  case sStopPoll => exact live _ stop

/-- A live counter less one is live, unless it has reached 0. -/
theorem Live.less {b c : Budget} (live : Live b c) (left : Budget.less c ≠ .polls 0) :
    Live b (Budget.less c) := by
  cases b <;> cases c <;> simp_all [Live, Budget.less]
  omega

/-- In contract, a command that is neither INIT nor STOP runs only after INIT (R210, R234). -/
theorem EngInv.initialized_of_transaction {s : State} (inv : EngInv s)
    (transaction : s.eng.eseq.opcode = some Opcode.start ∨ s.eng.eseq.opcode = some Opcode.write ∨
      s.eng.eseq.opcode = some Opcode.readNack)
    (ok : s.bk.violation = false) : s.bk.initialized = true := by
  have contract := inv.contract ok
  have initialized := inv.initialized ok
  unfold ContractHolds at contract
  cases q : s.eng.eseq <;> simp only [q] at contract
  case sStartTrig | sStartPoll1 => exact contract.1
  case sStartPoll2 => exact contract
  case sWriteTrig | sWritePoll => rcases contract.1 with p | p <;> simp_all
  case sReadTrig | sReadPoll => simp_all
  case sNone | sInit | sStopTrig | sStopPoll => simp [q, Sequencer.opcode] at transaction

/-- The end of a command satisfies the engine part: the engine is idle, whatever it was before. -/
theorem finish_engInv (r : ResultCode) (p : Option Phase) (s : State)
    (notStarted : p.getD s.eng.phase ≠ .started)
    (initialized : s.bk.violation = false → p.getD s.eng.phase ≠ .idle → s.bk.initialized = true) :
    EngInv (finish r p s) where
  busy := by simp
  started := by simpa using notStarted
  result := ⟨r, rfl⟩
  budget := nofun
  opcode := nofun
  contract := fun _ => trivial
  initialized := initialized

/-- The command running in `s` is still running in `t`, at any of its steps, and nothing has been
written to the host registers or judged of the contract in between. -/
structure Continues (s t : State) : Prop where
  hr : t.hr = s.hr
  cfg : t.cfg = s.cfg
  busy : t.eng.busy = s.eng.busy
  opCmd : t.eng.opCmd = s.eng.opCmd
  command : t.eng.eseq.opcode = s.eng.eseq.opcode
  violation : t.bk.violation = s.bk.violation
  initialized : t.bk.initialized = s.bk.initialized

/-- A sequencer state without a command is S_NONE (R33). -/
theorem opcode_eq_none_iff (q : Sequencer) : q.opcode = none ↔ q = .sNone := by
  cases q <;> simp [Sequencer.opcode]

/-- A step within the running command keeps the engine part, if the counter is live where it leads
and phase Started and the contract are as they have to be there. -/
theorem EngInv.of_continues {s t : State} (inv : EngInv s) (continues : Continues s t)
    (started : t.eng.phase = .started ↔ t.eng.eseq = .sStartPoll2)
    (budget : ∀ b, waitBudgetOf s.cfg t.eng.eseq = some b → Live b t.eng.cnt)
    (contract : ContractHolds s → ContractHolds t)
    (phase : t.eng.phase = s.eng.phase ∨ t.eng.eseq = .sStartPoll2) : EngInv t := by
  obtain ⟨hr, cfg, busy, opCmd, command, violation, initialized⟩ := continues
  refine ⟨?_, started, ?_, ?_, ?_, ?_, ?_⟩
  · rw [busy, inv.busy, ne_eq, ne_eq, ← opcode_eq_none_iff, ← opcode_eq_none_iff, command]
  · rw [hr]; exact inv.result
  · rw [cfg]; exact budget
  · rw [command, opCmd]; exact inv.opcode
  · rw [violation]; exact fun ok => contract (inv.contract ok)
  · rw [violation, initialized]
    intro ok active
    rcases phase with same | q
    · exact inv.initialized ok (same ▸ active)
    · exact inv.initialized_of_transaction (.inl (by rw [← command, q]; rfl)) ok

/-- An engine step keeps the engine part. A trigger step leads from a step outside the waits to the
wait of the same command, whose budget it loads; a poll counts down or ends the command. -/
theorem engineMove_engInv {s : State} (inv : EngInv s) : EngInv (engineMove s) := by
  have moved := engineMove_moved s
  generalize engineMove s = t at moved
  have started := inv.started
  have transaction := inv.initialized_of_transaction
  cases moved
  case none q => exact inv
  case spun q f b => exact inv
  case init q =>
    exact finish_engInv _ _ _ (by simp [started, q]) (fun _ _ => rfl)
  case startTrig q =>
    exact inv.of_continues ⟨rfl, rfl, rfl, rfl, by rw [q]; rfl, rfl, rfl⟩
      (by simp [startTrigger, started, q]) (live_loaded s.cfg .sStartPoll1 rfl)
      (by simp [ContractHolds, q, startTrigger]) (.inl rfl)
  case sendAddress q f c =>
    exact inv.of_continues ⟨rfl, rfl, rfl, rfl, by rw [q]; rfl, rfl, rfl⟩
      (by simp [sendAddress]) (live_loaded s.cfg .sStartPoll2 rfl)
      (by simpa [ContractHolds, q, sendAddress] using fun init _ => init) (.inr rfl)
  case writeTrig q =>
    exact inv.of_continues ⟨rfl, rfl, rfl, rfl, by rw [q]; rfl, rfl, rfl⟩
      (by simp [writeTrigger, started, q]) (live_loaded s.cfg .sWritePoll rfl)
      (by simp [ContractHolds, q, writeTrigger]) (.inl rfl)
  case readTrig q =>
    exact inv.of_continues ⟨rfl, rfl, rfl, rfl, by rw [q]; rfl, rfl, rfl⟩
      (by simp [readTrigger, started, q]) (live_loaded s.cfg .sReadPoll rfl)
      (by simp [ContractHolds, q, readTrigger]) (.inl rfl)
  case stopTrig q =>
    exact inv.of_continues ⟨rfl, rfl, rfl, rfl, by rw [q]; rfl, rfl, rfl⟩
      (by simp [stopTrigger, started, q]) (live_loaded s.cfg .sStopPoll rfl)
      (fun _ => trivial) (.inl rfl)
  case counted q f b c =>
    exact inv.of_continues ⟨rfl, rfl, rfl, rfl, rfl, rfl, rfl⟩ started
      (fun b load => (inv.budget b load).less c) id (.inl rfl)
  case expired q f b c =>
    rcases expires_cases (s.withEng { s.eng with cnt := .polls 0 }) q with
      ⟨e, h⟩ | ⟨e, h⟩ | ⟨e, h⟩ | ⟨e, h⟩ | ⟨e, h⟩ <;> rw [h] <;> change s.eng.eseq = _ at e <;>
      refine finish_engInv _ _ _ (by simp) (fun ok active => ?_)
    case inr.inr.inr.inr => exact absurd rfl active
    all_goals exact transaction (by simp [e, Sequencer.opcode]) ok
  case stopped q f => exact finish_engInv _ _ _ (by simp) (fun _ active => absurd rfl active)
  case startBadStatus q f c | addressSent q f c | addrNack q f c | dataSent q f c | dataNack q f c |
      received q f =>
    exact finish_engInv _ _ _ (by simp) (fun ok _ => transaction (by simp [q, Sequencer.opcode]) ok)

/-! Acceptance (R104, R210) -/

/-- The sequencer state in which an accepted command begins belongs to the opcode it was decoded
from. -/
theorem firstStep_opcode {op arg : Byte} {i : Instr} (decodes : decode op arg = .ok i) :
    (firstStep i).opcode = some op := by
  have known : op ∈ [(0x01 : Byte), 0x02, 0x03, 0x04, 0x05] := by
    by_contra reserved
    simp [decode_reserved reserved] at decodes
  simp only [List.mem_cons, List.not_mem_nil, or_false] at known
  rcases known with rfl | rfl | rfl | rfl | rfl <;> cases decodes <;> rfl

/-- Acceptance while idle keeps the engine part: the contract check is what the contract asks of the
command's first step. -/
theorem accept_engInv {s : State} (inv : EngInv s) (idle : s.eng.busy = false) {c : Byte}
    {i : Instr} (decodes : decode c s.hr.arg = .ok i) : EngInv (accept c i s) := by
  have noStep : s.eng.eseq = .sNone := by simpa [idle] using inv.busy
  have notStarted : s.eng.phase ≠ .started := by simp [inv.started, noStep]
  rw [accept_eq]
  refine ⟨?_, ?_, inv.result, ?_, ?_, ?_, ?_⟩
  · cases i <;> simp [firstStep]
  · cases i <;> simp [firstStep, notStarted]
  · cases i <;> simp [firstStep, waitBudgetOf]
  · simp [firstStep_opcode decodes]
  · intro ok
    have allowed : inContract i s.eng.phase s.eng.dir s.bk.initialized = true := by
      simpa using (Bool.or_eq_false_iff.mp ok).2
    cases i <;> simp_all [firstStep, ContractHolds, inContract]
  · have initialized := inv.initialized
    simp_all

theorem resetWith_engInv (c : Config) : EngInv (State.resetWith c) where
  busy := by simp [State.resetWith, Engine.reset]
  started := by simp [State.resetWith, Engine.reset]
  result := ⟨.ok, rfl⟩
  budget := nofun
  opcode := nofun
  contract := fun _ => trivial
  initialized := fun _ active => absurd rfl active

/-- A host access keeps the engine part. -/
theorem hostStep_engInv {s : State} (inv : EngInv s) (a : HostAccess) : EngInv (hostStep a s) := by
  have moved := hostStep_moved a s
  generalize hostStep a s = t at moved
  cases moved
  case cmdRejected c r b d =>
    obtain ⟨busy, started, -, budget, opcode, contract, initialized⟩ := inv
    exact ⟨busy, started, ⟨.illegalCmd, rfl⟩, budget, opcode, contract, initialized⟩
  case cmdAccepted c i b d =>
    have issued : EngInv (s.withHr { s.hr with cmd := c }) := inv.congr rfl rfl rfl id rfl
    exact accept_engInv issued b d
  all_goals exact inv.congr rfl rfl rfl id rfl

/-- Every event keeps the engine part of the invariant. -/
theorem move_engInv {s : State} (inv : EngInv s) (e : Event) : EngInv (move e s) := by
  cases e with
  | host a => exact hostStep_engInv inv a
  | engine =>
    cases busy : s.eng.busy
    · rwa [move_engine_idle busy]
    · rw [move_engine busy]; exact engineMove_engInv inv
  | biu d =>
    obtain ⟨hr, eng, -⟩ := biuStep_frame d s
    obtain ⟨cfg, es, bk⟩ := biuStep_cfg_bk d s
    exact inv.congr (t := biuStep d s) eng (by rw [hr]) cfg (by rw [bk]; exact id) (by rw [bk])
  | reset => exact (resetWith_engInv s.cfg).congr rfl rfl rfl id rfl

end Sys2Proof.Machine
end

section
/-! PROOFS. The invariant of R119: what the engine's waits say of the bus, the three parts together,
and the statements on it. -/

namespace Sys2Proof.Machine

/-! The waits (R111, R119 (e)) -/

/-- INT is set on a synchronised bus only where nothing is outstanding. -/
theorem BusAgrees.pending_eq_none {s : State} (bus : BusAgrees s)
    (int : ctrlInt s.biu.ctrl = true) : s.biu.pending = .none := by
  obtain ⟨start, xfer, stop⟩ := bus.ctrl
  cases p : s.biu.pending
  case none => rfl
  case start => rw [start p] at int; exact absurd int (by decide)
  case xfer => rw [xfer p] at int; exact absurd int (by decide)
  case stop => rw [stop p] at int; exact absurd int (by decide)

/-- STO clear on a synchronised bus leaves no STOP outstanding. -/
theorem BusAgrees.pending_ne_stop {s : State} (bus : BusAgrees s)
    (sto : ctrlSto s.biu.ctrl = false) : s.biu.pending ≠ .stop := fun p => by
  obtain ⟨-, -, stop⟩ := bus.ctrl
  rw [stop p] at sto
  exact absurd sto (by decide)

/-- What the waits say of the bus is on the engine, the BIU and BK.last_stop_expired alone. -/
theorem WaitAgrees.congr {s t : State} (wait : WaitAgrees s) (eng : t.eng = s.eng)
    (biu : t.biu = s.biu) (expired : t.bk.lastStopExpired = s.bk.lastStopExpired) :
    WaitAgrees t := by
  unfold WaitAgrees at wait ⊢
  rwa [eng, biu, expired]

/-- A command that ends leaves nothing outstanding, or phase Error. -/
theorem finish_waitAgrees (r : ResultCode) (p : Option Phase) (s : State)
    (settled : s.biu.pending = .none ∨ p.getD s.eng.phase = .error ∨ s.bk.lastStopExpired = true) :
    WaitAgrees (finish r p s) := settled

/-- An engine step on a synchronised bus leads to a wait for the action it triggers, ends a wait
whose action is completed, or gives it up in phase Error or with BK.last_stop_expired set. -/
theorem engineMove_waitAgrees {s : State} (bus : BusAgrees s) (wait : WaitAgrees s) :
    WaitAgrees (engineMove s) := by
  have moved := engineMove_moved s
  generalize engineMove s = t at moved
  cases moved
  case none q => exact wait
  case spun q f b => exact wait
  case counted q f b c => exact wait
  case init q => exact finish_waitAgrees _ _ _ (by simpa [WaitAgrees, q] using wait)
  case startTrig | sendAddress | writeTrig | readTrig | stopTrig => exact .inl rfl
  case startBadStatus | addrNack | dataNack => exact finish_waitAgrees _ _ _ (.inr (.inl rfl))
  case addressSent q f c => exact finish_waitAgrees _ _ _ (.inl (bus.pending_eq_none f))
  case dataSent q f c => exact finish_waitAgrees _ _ _ (.inl (bus.pending_eq_none f))
  case received q f => exact finish_waitAgrees _ _ _ (.inl (bus.pending_eq_none f))
  case stopped q f =>
    simp only [WaitAgrees, q] at wait
    exact finish_waitAgrees _ _ _ (.inl (wait.resolve_left (bus.pending_ne_stop f)).1)
  case expired q f b c =>
    rcases expires_cases (s.withEng { s.eng with cnt := .polls 0 }) q with
      ⟨-, h⟩ | ⟨-, h⟩ | ⟨-, h⟩ | ⟨-, h⟩ | ⟨-, h⟩ <;> rw [h] <;> refine finish_waitAgrees _ _ _ ?_
    case inr.inr.inr.inr => exact .inr (.inr rfl)
    all_goals exact .inr (.inl rfl)

/-- A BIU step on a synchronised bus completes the action the wait is for, and sets INT or clears
STO as the wait expects (R112, R113). -/
theorem biuStep_waitAgrees {s : State} (sync : s.bk.unsync = false) (bus : BusAgrees s)
    (wait : WaitAgrees s) (d : BiuDraw) : WaitAgrees (biuStep d s) := by
  obtain ⟨start, xfer, stop⟩ := bus.ctrl
  rcases biuStep_cases s d with ⟨u, e⟩ | ⟨-, p, e⟩ | ⟨-, p, e⟩ | ⟨-, p, e⟩ <;> rw [e]
  · simp [sync] at u
  · exact wait
  · rcases p with p | p <;> unfold WaitAgrees at wait ⊢ <;>
      cases q : s.eng.eseq <;> simp_all [actionCompletes] <;> decide
  · unfold WaitAgrees at wait ⊢
    cases q : s.eng.eseq <;> simp_all [stopCompletes]
    decide

/-- A host access leaves what the waits say of the bus: a command accepted while idle begins at no
wait. -/
theorem hostStep_waitAgrees {s : State} (busy : s.eng.busy = true ↔ s.eng.eseq ≠ .sNone)
    (wait : WaitAgrees s) (a : HostAccess) : WaitAgrees (hostStep a s) := by
  have moved := hostStep_moved a s
  generalize hostStep a s = t at moved
  cases moved
  case cmdAccepted c i idle d =>
    have noStep : s.eng.eseq = .sNone := by simpa [idle] using busy
    simp only [WaitAgrees, noStep] at wait
    rw [accept_eq]
    cases i <;> exact wait
  all_goals exact wait

/-! The three parts together -/

/-- The invariant is its three parts. -/
theorem inv_iff (s : State) :
    Inv s ↔ BusInv s ∧ EngInv s ∧ (s.bk.unsync = false → WaitAgrees s) := by
  constructor
  · rintro ⟨busy, started, result, budget, opcode, ctrlZeros, status, bus, log, wait, rate,
      contract, initialized⟩
    exact ⟨⟨ctrlZeros, status, bus, log, rate⟩,
      ⟨busy, started, result, budget, opcode, contract, initialized⟩, wait⟩
  · rintro ⟨⟨ctrlZeros, status, bus, log, rate⟩,
      ⟨busy, started, result, budget, opcode, contract, initialized⟩, wait⟩
    exact ⟨busy, started, result, budget, opcode, ctrlZeros, status, bus, log, wait, rate, contract,
      initialized⟩

theorem resetWith_inv (c : Config) : Inv (State.resetWith c) :=
  (inv_iff _).mpr ⟨resetWith_busInv c, resetWith_engInv c, fun _ => .inl rfl⟩

/-- No event but reset takes BK.unsync back (R49). -/
theorem move_unsync {e : Event} {s : State} (noReset : e ≠ .reset)
    (unsync : s.bk.unsync = true) : (move e s).bk.unsync = true := by
  cases e with
  | reset => exact absurd rfl noReset
  | host a =>
    obtain ⟨-, v, r, bk⟩ := hostStep_cfg_bk a s
    exact (congrArg Book.unsync bk).trans unsync
  | engine =>
    cases busy : s.eng.busy
    · rwa [move_engine_idle busy]
    · obtain ⟨-, -, -, -, unsync'⟩ := engineMove_cfg_bk s busy
      rw [move_engine busy]
      exact unsync'.mpr (.inl unsync)
  | biu d =>
    obtain ⟨-, es, bk⟩ := biuStep_cfg_bk d s
    exact (congrArg Book.unsync bk).trans unsync

/-- Every event keeps the invariant. -/
theorem move_inv {s : State} (inv : Inv s) (e : Event) : Inv (move e s) := by
  obtain ⟨bus, eng, wait⟩ := (inv_iff s).mp inv
  refine (inv_iff _).mpr ⟨move_busInv bus e, move_engInv eng e, fun sync' => ?_⟩
  by_cases reset : e = .reset
  · subst reset
    exact .inl rfl
  · have sync : s.bk.unsync = false := by
      by_contra unsync
      simp [move_unsync reset (by simpa using unsync)] at sync'
    cases e with
    | reset => exact absurd rfl reset
    | host a => exact hostStep_waitAgrees eng.busy (wait sync) a
    | engine =>
      cases busy : s.eng.busy
      · rw [move_engine_idle busy]; exact wait sync
      · rw [move_engine busy]; exact engineMove_waitAgrees (bus.bus sync) (wait sync)
    | biu d => exact biuStep_waitAgrees sync (bus.bus sync) (wait sync) d

/-- The invariant does not look at the agenda or the counter of free events. -/
theorem advance_inv {s : State} (inv : Inv s) : Inv s.advance := by
  obtain ⟨bus, eng, wait⟩ := (inv_iff s).mp inv
  refine (inv_iff _).mpr ⟨bus.congr (by simp) (by simp) (by simp) (by simp) (by simp),
    eng.congr (by simp) (by simp) (by simp) (by simp) (by simp), ?_⟩
  rw [State.advance_bk]
  exact fun sync => (wait sync).congr (by simp) (by simp) (by simp)

/-- Settles O33: nothing runs and nothing is outstanding. -/
theorem resetSatisfiesInvariant : Obligations.ResetSatisfiesInvariant := by
  unfold Obligations.ResetSatisfiesInvariant
  exact resetWith_inv

/-- Settles O34: the bus and the engine part of the invariant are kept each on its own, and what the
waits say of the bus with them. -/
theorem everyStepKeepsInvariant : Obligations.EveryStepKeepsInvariant := by
  unfold Obligations.EveryStepKeepsInvariant
  intro s t inv hstep
  obtain rfl := step_next_iff.mp hstep
  exact move_inv (advance_inv inv) s.nextEvent

end Sys2Proof.Machine
end

section
/-! PROOFS. What the invariant gives, what every step keeps, and the single steps of engine, host
and BIU that 40_engine_and_timeout_guard.md words whole. -/

namespace Sys2Proof.Machine

/-! What the invariant gives (R119) -/

/-- Without an outstanding action or with one, a synchronised BIU's control register holds one of
six values (R119 (e)). -/
theorem BusAgrees.ctrl_mem {s : State} (bus : BusAgrees s) :
    s.biu.ctrl ∈ [(0x00 : Byte), 0x04, 0x14, 0x24, 0x84, 0xA4] := by
  unfold BusAgrees at bus
  cases p : s.biu.pending <;> simp only [p] at bus
  case none => rcases bus with ⟨c, -⟩ | ⟨c | c, -⟩ | ⟨c, -⟩ <;> simp [c]
  all_goals simp [bus.1]

/-- The last event of a synchronised bus with an action outstanding is the action's trigger. -/
theorem BusAgrees.last_trig {s : State} (bus : BusAgrees s) (outstanding : s.biu.pending ≠ .none) :
    ∃ k b, s.bk.busLog.getLast? = some (.trig k b) := by
  unfold BusAgrees at bus
  cases p : s.biu.pending <;> simp only [p] at bus
  case none => exact absurd p outstanding
  case start => exact ⟨_, _, bus.2⟩
  case xfer => rcases bus.2 with log | log <;> exact ⟨_, _, log⟩
  case stop => exact ⟨_, _, bus.2⟩

theorem ResultCode.byte_mem (r : ResultCode) :
    r.byte ∈ [(0x00 : Byte), 0x01, 0x02, 0x03, 0x04, 0x05, 0x06, 0x07, 0xFF] := by
  cases r <;> decide

/-- A counter live in a bounded wait is a number of polls from 1 to the budget. -/
theorem Live.polls {b : Nat} {c : Budget} (live : Live (.polls b) c) :
    ∃ n, c = .polls n ∧ 1 ≤ n ∧ n ≤ b := by
  cases c with
  | polls n => exact ⟨n, rfl, live⟩
  | unbounded => exact live.elim

/-- Settles O35, clause by clause of the rule. -/
theorem invariantGivesRuleR119 : Obligations.InvariantGivesRuleR119 := by
  unfold Obligations.InvariantGivesRuleR119
  intro s inv
  have lowBits : ∀ b : Byte, b &&& 0x07 = 0 → b &&& 0x03 = 0 ∧ b &&& 0x04 = 0 ∧ b &&& 0xF8 = b := by
    decide
  refine ⟨inv.busy, fun started => ?_, ?_, fun b budget => (inv.budget _ budget).polls,
    fun sync => (inv.bus sync).ctrl_mem, lowBits _ inv.status⟩
  · have q := inv.started.mp started
    exact ⟨inv.busy.mpr (by simp [q]), q⟩
  · obtain ⟨r, result⟩ := inv.result
    exact result ▸ r.byte_mem

/-! What every step keeps (R46 to R49, R100) -/

theorem move_cfg (e : Event) (s : State) : (move e s).cfg = s.cfg := by
  cases e with
  | host a => exact (hostStep_cfg_bk a s).1
  | engine =>
    cases busy : s.eng.busy
    · rw [move_engine_idle busy]
    · rw [move_engine busy]; exact (engineMove_cfg_bk s busy).1
  | biu d => exact (biuStep_cfg_bk d s).1
  | reset => rfl

/-- Without a reset the sticky bits stay set and the log only grows. -/
theorem move_sticky {e : Event} (s : State) (noReset : e ≠ .reset) :
    (s.bk.violation = true → (move e s).bk.violation = true) ∧
    (s.bk.refused = true → (move e s).bk.refused = true) ∧
    (s.bk.initialized = true → (move e s).bk.initialized = true) ∧
    ∃ es, (move e s).bk.busLog = s.bk.busLog ++ es := by
  cases e with
  | reset => exact absurd rfl noReset
  | host a =>
    obtain ⟨-, v, r, bk⟩ := hostStep_cfg_bk a s
    show _ ∧ _ ∧ _ ∧ ∃ es, (hostStep a s).bk.busLog = _
    simp only [move, bk]
    exact ⟨fun h => by simp [h], fun h => by simp [h], id, [], (List.append_nil _).symm⟩
  | engine =>
    cases busy : s.eng.busy
    · rw [move_engine_idle busy]
      exact ⟨id, id, id, [], (List.append_nil _).symm⟩
    · rw [move_engine busy]
      obtain ⟨-, violation, refused, initialized, -⟩ := engineMove_cfg_bk s busy
      exact ⟨violation.trans, refused.trans, fun h => initialized.mpr (.inl h), _,
        engineMove_log s busy⟩
  | biu d =>
    obtain ⟨-, es, bk⟩ := biuStep_cfg_bk d s
    simp only [move, bk]
    exact ⟨id, id, id, es, rfl⟩

/-- Settles O37: the step is the move of its event. -/
theorem configurationAndStickyBits : Obligations.ConfigurationAndStickyBits := by
  unfold Obligations.ConfigurationAndStickyBits
  intro s t hstep
  obtain rfl := step_next_iff.mp hstep
  refine ⟨(move_cfg _ _).trans s.advance_cfg, fun noReset => ?_⟩
  have unsync := move_unsync (s := s.advance) noReset
  obtain ⟨violation, refused, initialized, log⟩ := move_sticky s.advance noReset
  rw [State.advance_bk] at violation refused initialized log unsync
  exact ⟨violation, refused, initialized, unsync, log⟩

/-! When BK.unsync is set (R111) -/

/-- BK.unsync is set by an engine step that triggers over an outstanding action, and by nothing
else. -/
theorem move_sets_unsync {e : Event} {s : State} (sync : s.bk.unsync = false)
    (unsync : (move e s).bk.unsync = true) :
    e = .engine ∧ s.eng.busy = true ∧ (triggers? s).isSome = true ∧ s.biu.pending ≠ .none := by
  cases e with
  | host a =>
    obtain ⟨-, v, r, bk⟩ := hostStep_cfg_bk a s
    simp [move, bk, sync] at unsync
  | engine =>
    cases busy : s.eng.busy
    · simp [move_engine_idle busy, sync] at unsync
    · rw [move_engine busy] at unsync
      obtain ⟨-, -, -, -, set⟩ := engineMove_cfg_bk s busy
      exact ⟨rfl, rfl, (set.mp unsync).resolve_left (by simp [sync])⟩
  | biu d =>
    obtain ⟨-, es, bk⟩ := biuStep_cfg_bk d s
    simp [move, bk, sync] at unsync
  | reset => simp [move, powerOnReset, State.resetWith, Book.reset] at unsync

/-- Where an engine step triggers over an action outstanding on a synchronised bus, an earlier wait
for it ran out of budget: START's address frame follows a completion, and every other trigger step
follows no wait. -/
theorem WaitAgrees.expired_of_triggers {s : State} (wait : WaitAgrees s) (bus : BusAgrees s)
    (triggers : (triggers? s).isSome = true) (outstanding : s.biu.pending ≠ .none) :
    s.eng.phase = .error ∨ s.bk.lastStopExpired = true := by
  have int : ctrlInt s.biu.ctrl = true → False := fun f => outstanding (bus.pending_eq_none f)
  unfold WaitAgrees at wait
  unfold triggers? at triggers
  cases q : s.eng.eseq <;> simp_all

/-- Settles O43: only a trigger over an outstanding action sets BK.unsync, and the invariant says
why that action is still outstanding. -/
theorem unsyncOnlyAfterExpiredWait : Obligations.UnsyncOnlyAfterExpiredWait := by
  unfold Obligations.UnsyncOnlyAfterExpiredWait
  intro s t inv hstep sync unsync
  obtain rfl := step_next_iff.mp hstep
  obtain ⟨hev, -, triggers, outstanding⟩ := move_sets_unsync (by simpa using sync) unsync
  have expired := ((advance_inv inv).wait (by simpa using sync)).expired_of_triggers
    ((advance_inv inv).bus (by simpa using sync)) triggers outstanding
  rw [State.advance_biu] at outstanding
  rw [State.advance_eng, State.advance_bk] at expired
  exact ⟨hev, outstanding, (inv.bus sync).last_trig outstanding, expired⟩

/-! Single steps -/

/-- Settles O12: the sequencer state's opcode and the latched operand name the running command. -/
theorem stepRunsDecodedCommand : Obligations.StepRunsDecodedCommand := by
  unfold Obligations.StepRunsDecodedCommand
  intro s op i hev busy opcode decodes
  have running : runningInstr s.advance = some i := by
    simp [runningInstr, opcode, decodes, Except.toOption]
  have runs : engineStep s.advance = exec i s.advance := by
    simp [engineStep, busy, running]
  rw [step, hev]
  exact runs

/-- Settles O16: both accesses are refusals. -/
theorem refusedAccesses : Obligations.RefusedAccesses := by
  unfold Obligations.RefusedAccesses
  have refused : ∀ s : State,
      refuse s.advance = { s.advance with bk := { s.bk with refused := true } } := fun s => by
    rw [refuse, State.advance_bk]; rfl
  refine ⟨fun s c hev busy => ?_, fun s a hev width => ?_⟩ <;>
    rw [step_eq, hev, ← refused s]
  · have write : hostWrite 0 c s.advance = refuse s.advance := by simp [hostWrite, busy]
    exact congrArg Host.Outcome.next write
  · exact congrArg Host.Outcome.next (if_neg width)

/-- Settles O20: with the log's and the register's form of the drawn code. -/
theorem actionCompletion : Obligations.ActionCompletion := by
  unfold Obligations.ActionCompletion
  intro s d hev sync
  have completes : s.biu.pending = .start ∨ s.biu.pending = .xfer →
      step s = .next (actionCompletes d s.advance) := fun p => by
    rw [step_eq, hev]
    rcases p with p | p <;> simp [move, biuStep, sync, p]
  refine ⟨fun p => ?_, fun p => ?_⟩
  · rw [completes (.inl p), actionCompletes, statusWithCode_eq, codeByte_eq]
    simp [p, ctrlWithInt, State.withBiu, State.withBk]
  · rw [completes (.inr p), actionCompletes, statusWithCode_eq, codeByte_eq]
    simp [p, ctrlWithInt, State.withBiu, State.withBk]

/-- Settles O21: the completion of a STOP. -/
theorem stopCompletion : Obligations.StopCompletion := by
  unfold Obligations.StopCompletion
  intro s d hev sync p
  have completes : biuStep d s.advance = stopCompletes s.advance := by
    simp [biuStep, sync, p]
  rw [step_eq, hev, ← State.advance_biu s, ← State.advance_bk s]
  exact congrArg Host.Outcome.next completes

/-! The draws of the unsynchronised BIU (R114) -/

/-- INT and STO written one after the other are read back as written (R40). -/
theorem ctrl_int_sto (c : Byte) (int sto : Bool) :
    (ctrlWithSto (ctrlWithInt c int) sto).getLsbD 7 = int ∧
    (ctrlWithSto (ctrlWithInt c int) sto).getLsbD 4 = sto := by
  revert c int sto; decide

/-- A status code written is read back (R41). -/
theorem statusWithCode_code (status : Byte) (code : BitVec 5) :
    (statusWithCode status code).extractLsb' 3 5 = code := by
  revert status code; decide

/-- Settles O23: the step whose draws are the values asked for. -/
theorem unsyncBiuDrawsAnything : Obligations.UnsyncBiuDrawsAnything := by
  unfold Obligations.UnsyncBiuDrawsAnything
  intro s int sto code data p ev unsync
  have draws : ∀ d, step (s.withAgenda [.biu d]) =
      .next (biuUnsync d (s.withAgenda [])) := fun d => by
    rw [step_eq, State.nextEvent_withAgenda_cons, State.advance_withAgenda_cons]
    simp [move, biuStep, unsync]
  obtain ⟨readInt, readSto⟩ := ctrl_int_sto s.biu.ctrl int sto
  refine ⟨⟨code, data, int, sto, p, ev⟩, _, draws _, readInt, readSto, statusWithCode_code _ _, rfl,
    rfl, congrArg (s.bk.busLog ++ ·) ?_⟩
  cases ev with
  | none => rfl
  | some c =>
    cases c with
    | done c b => exact congrArg (fun status => [BusEvent.done status b]) (codeByte_eq c)
    | stopDone => rfl

end Sys2Proof.Machine
end

section
/-! PROOFS. Waits that need not end: an unbounded wait on a silent BIU, and a START on a fair
infinite run. -/

namespace Sys2Proof.Machine

/-! Unbounded waits (R116, R163 (a), R207) -/

/-- All that a running command and its wait look at is in `t` as it was in `s`; what a host access
can still change, HR.ARG and two sticky bits, is left out. -/
structure Unmoved (s t : State) : Prop where
  eng : t.eng = s.eng
  biu : t.biu = s.biu
  busLog : t.bk.busLog = s.bk.busLog
  unsync : t.bk.unsync = s.bk.unsync
  cfg : t.cfg = s.cfg
  cmd : t.hr.cmd = s.hr.cmd
  result : t.hr.result = s.hr.result
  rxdata : t.hr.rxdata = s.hr.rxdata

theorem Unmoved.refl (s : State) : Unmoved s s := ⟨rfl, rfl, rfl, rfl, rfl, rfl, rfl, rfl⟩

theorem Unmoved.trans {s t u : State} (st : Unmoved s t) (tu : Unmoved t u) : Unmoved s u :=
  ⟨tu.eng.trans st.eng, tu.biu.trans st.biu, tu.busLog.trans st.busLog, tu.unsync.trans st.unsync,
    tu.cfg.trans st.cfg, tu.cmd.trans st.cmd, tu.result.trans st.result, tu.rxdata.trans st.rxdata⟩

/-- A host access moves nothing of a running command (R64, R105). -/
theorem hostStep_unmoved (a : HostAccess) {s : State} (busy : s.eng.busy = true) :
    Unmoved s (hostStep a s) := by
  obtain ⟨biu, busLog, rxdata, -⟩ := hostStep_frame a s
  obtain ⟨eng, cmd, result⟩ := hostStep_busy a s busy
  obtain ⟨cfg, v, r, bk⟩ := hostStep_cfg_bk a s
  exact ⟨eng, biu, busLog, by rw [bk], cfg, cmd, result, rxdata⟩

/-- A poll of an unbounded wait that does not see its flag changes nothing (R116). -/
theorem engineMove_spin {s : State} (unbounded : waitBudgetOf s.cfg s.eng.eseq = some .unbounded)
    (noFlag : awaited s = false) : engineMove s = s := by
  unfold engineMove
  unfold awaited at noFlag
  cases q : s.eng.eseq <;>
    simp only [q, waitBudgetOf, Option.some.injEq, reduceCtorEq] at unbounded noFlag
  case sWritePoll => simp [writePoll, unbounded, noFlag]
  case sReadPoll => simp [readPoll, unbounded, noFlag]
  case sStopPoll => simp [stopPoll, unbounded, noFlag]

/-- On a silent BIU neither engine nor host moves anything of an unbounded wait that has not seen
its flag. -/
theorem moves_unmoved {s : State} {es : List Event} (busy : s.eng.busy = true)
    (unbounded : waitBudgetOf s.cfg s.eng.eseq = some .unbounded) (noFlag : awaited s = false)
    (silent : SilentBiu es) (noReset : Event.reset ∉ es) : Unmoved s (moves es s) := by
  refine moves_keep (fun e he t unmoved => ?_) (.refl s)
  have busy' : t.eng.busy = true := by rw [unmoved.eng, busy]
  cases e with
  | host a => exact unmoved.trans (hostStep_unmoved a busy')
  | engine =>
    have spin : engineMove t = t :=
      engineMove_spin (by rw [unmoved.eng, unmoved.cfg, unbounded])
        (by unfold awaited at noFlag ⊢; rw [unmoved.eng, unmoved.biu, noFlag])
    rwa [move_engine busy', spin]
  | biu d => exact absurd (silent _ he) (by simp [Event.isBiu])
  | reset => exact absurd he noReset

/-- Settles O52: each of the three waits is unbounded and has not seen its flag. -/
theorem unboundedWaitHangs : Obligations.UnboundedWaitHangs := by
  unfold Obligations.UnboundedWaitHangs
  intro s es busy silent noReset wait
  have hung : waitBudgetOf s.cfg s.eng.eseq = some .unbounded ∧ awaited s = false := by
    rcases wait with ⟨q | q, budget, flag⟩ | ⟨q, budget, flag⟩
    · exact ⟨by rw [q]; exact congrArg some budget, by rw [awaited, q]; exact flag⟩
    · exact ⟨by rw [q]; exact congrArg some budget, by rw [awaited, q]; exact flag⟩
    · exact ⟨by rw [q]; exact congrArg some budget, by simp [awaited, q, ctrlSto, flag]⟩
  obtain ⟨eng, biu, busLog, -, -, cmd, result, rxdata⟩ :=
    moves_unmoved busy hung.1 hung.2 silent noReset
  exact ⟨_, runPlan_eq es s, eng, biu, busLog, cmd, result, rxdata⟩

/-! START on a fair run (R101, R145, R207) -/

/-- A START is running, in a wait with polls left. -/
def InStart (s : State) : Prop :=
  s.eng.busy = true ∧ (s.eng.eseq = .sStartTrig ∨
    (s.eng.eseq = .sStartPoll1 ∨ s.eng.eseq = .sStartPoll2) ∧ ∃ n, s.eng.cnt = .polls (n + 1))

/-- A START has ended with one of its five results (R145). -/
def StartEnded (s : State) : Prop :=
  s.eng.busy = false ∧
    ((s.hr.result = 0x00 ∧ s.eng.phase = .addressSent) ∨
     (s.hr.result ∈ [(0x01 : Byte), 0x02, 0x03, 0x04] ∧ s.eng.phase = .error))

/-- The engine steps a START has left at most: 1 + 2 · WAIT_BUDGET at its trigger (R145). -/
def startStepsLeft (s : State) : Nat :=
  match s.eng.eseq, s.eng.cnt with
  | .sStartTrig, _ => 1 + 2 * s.cfg.params.waitBudget
  | .sStartPoll1, .polls n => n + s.cfg.params.waitBudget
  | .sStartPoll2, .polls n => n
  | _, _ => 0

/-- Running out of budget ends a START (R145). -/
theorem expires_startEnded {s : State} (q : s.eng.eseq = .sStartPoll1 ∨ s.eng.eseq = .sStartPoll2) :
    StartEnded (expires s) := by
  rcases q with q | q <;> simp [expires, q, fail, StartEnded, ResultCode.byte]

/-- Every engine step of a START ends it or leaves it fewer engine steps. -/
theorem engineMove_start {s : State} (start : InStart s) :
    StartEnded (engineMove s) ∨
      InStart (engineMove s) ∧ startStepsLeft (engineMove s) < startStepsLeft s := by
  obtain ⟨busy, wait⟩ := start
  obtain ⟨m, budget⟩ : ∃ m, s.cfg.params.waitBudget = m + 1 := by
    obtain ⟨-, -, -, -, -, wait, -⟩ := (Params.wellFormed_iff s.cfg.params).mp s.cfg.wf
    exact Nat.exists_eq_add_of_le' wait
  have moved := engineMove_moved s
  generalize engineMove s = t at moved
  cases moved
  case startTrig q =>
    refine .inr ⟨⟨busy, .inr ⟨.inl rfl, m, by simp [startTrigger, budget]⟩⟩, ?_⟩
    simp [startStepsLeft, q, startTrigger]
    omega
  case sendAddress q f c =>
    obtain ⟨-, n, cnt⟩ := wait.resolve_left (by simp [q])
    refine .inr ⟨⟨busy, .inr ⟨.inr rfl, m, by simp [sendAddress, budget]⟩⟩, ?_⟩
    simp [startStepsLeft, q, sendAddress, cnt]
  case startBadStatus | addressSent | addrNack =>
    exact .inl (by simp [StartEnded, fail, ResultCode.byte])
  case expired q f b c =>
    have poll := wait.resolve_left (fun trig => by simp [trig, Sequencer.isPoll] at q)
    exact .inl (expires_startEnded poll.1)
  case counted q f b c =>
    obtain ⟨poll, n, cnt⟩ := wait.resolve_left (fun trig => by simp [trig, Sequencer.isPoll] at q)
    obtain ⟨k, rfl⟩ : ∃ k, n = k + 1 :=
      Nat.exists_eq_succ_of_ne_zero (by simpa [cnt, Budget.less] using c)
    refine .inr ⟨⟨busy, .inr ⟨poll, k, by simp [cnt, Budget.less]⟩⟩, ?_⟩
    rcases poll with q | q <;> simp [startStepsLeft, q, cnt, Budget.less]
  case spun q f b => rcases wait with q | ⟨q | q, -⟩ <;> simp [q, waitBudgetOf] at b
  all_goals simp_all

/-- An event of host or BIU leaves a running START where it is. -/
theorem move_start {s : State} {e : Event} (start : InStart s) (noEngine : e ≠ .engine)
    (noReset : e ≠ .reset) : InStart (move e s) ∧ startStepsLeft (move e s) = startStepsLeft s := by
  have kept : (move e s).eng = s.eng := by
    cases e with
    | host a => exact (hostStep_busy a s start.1).1
    | engine => exact absurd rfl noEngine
    | biu d => exact (biuStep_frame d s).2.1
    | reset => exact absurd rfl noReset
  unfold InStart startStepsLeft
  rw [kept, move_cfg]
  exact ⟨start, rfl⟩

/-- A START that has not ended yet runs on, with no more engine steps left than before. -/
theorem move_start_or_ended {s : State} {e : Event} (start : InStart s) (noReset : e ≠ .reset) :
    StartEnded (move e s) ∨ InStart (move e s) ∧ startStepsLeft (move e s) ≤ startStepsLeft s := by
  by_cases engine : e = .engine
  · rw [engine, move_engine start.1]
    exact (engineMove_start start).imp_right (And.imp_right Nat.le_of_lt)
  · exact .inr ((move_start start engine noReset).imp_right le_of_eq)

/-- Settles O51: were the START never to end, it would run at every state of the run; at the state
that leaves it the fewest engine steps the fair engine still takes one, and leaves it fewer. -/
theorem fairRunEndsStart : Obligations.FairRunEndsStart := by
  unfold Obligations.FairRunEndsStart
  intro r es run fair noReset busy trig
  have next : ∀ n, r (n + 1) = move (es n) (r n) := fun n =>
    (Host.Outcome.next.inj ((applyEvent_eq _ _).symm.trans (run n))).symm
  by_contra never
  have notEnded : ∀ n, ¬ StartEnded (r n) := fun n ended => never ⟨n, ended⟩
  have runs : ∀ n, InStart (r n) ∧ startStepsLeft (r (n + 1)) ≤ startStepsLeft (r n) := by
    have step : ∀ n, InStart (r n) →
        InStart (r (n + 1)) ∧ startStepsLeft (r (n + 1)) ≤ startStepsLeft (r n) := fun n start => by
      rw [next n]
      exact (move_start_or_ended start (noReset n)).resolve_left (next n ▸ notEnded (n + 1))
    have start : ∀ n, InStart (r n) := fun n => by
      induction n with
      | zero => exact ⟨busy, .inl trig⟩
      | succ n ih => exact (step n ih).1
    exact fun n => ⟨start n, (step n (start n)).2⟩
  obtain ⟨n, least⟩ : ∃ n, ∀ m, startStepsLeft (r n) ≤ startStepsLeft (r m) :=
    ⟨_, fun m => Function.argmin_le (fun n => startStepsLeft (r n)) m⟩
  obtain ⟨k, hk, engine⟩ := fair n (fun m _ => (runs m).1.1) n le_rfl
  have fewer : startStepsLeft (r (k + 1)) < startStepsLeft (r k) := by
    have ended := notEnded (k + 1)
    rw [next k, engine, move_engine (runs k).1.1] at ended ⊢
    exact ((engineMove_start (runs k).1).resolve_left ended).2
  have most : startStepsLeft (r k) ≤ startStepsLeft (r n) :=
    antitone_nat_of_succ_le (f := fun m => startStepsLeft (r m)) (fun m => (runs m).2) hk
  exact absurd (least (k + 1)) (not_le_of_gt (fewer.trans_le most))

end Sys2Proof.Machine
end

section
/-! SUPPORT. A synchronised BIU between a trigger and its completion, and runs along which the
premises of R118 hold. -/

namespace Sys2Proof.Machine

/-! Between a trigger and its completion (R111, R112) -/

/-- A START or transfer action is outstanding, INT not yet set. -/
def Outstanding (s : State) : Prop :=
  (s.biu.pending = .start ∨ s.biu.pending = .xfer) ∧ ctrlInt s.biu.ctrl = false

/-- Nothing is outstanding any more, INT is set, and the status code is one of `good`. -/
def Answered (good : Byte → Prop) (s : State) : Prop :=
  s.biu.pending = .none ∧ ctrlInt s.biu.ctrl = true ∧ good (s.biu.status &&& 0xF8)

theorem ctrlInt_ctrlWithInt (c : Byte) (v : Bool) : ctrlInt (ctrlWithInt c v) = v := by
  revert c v; decide

/-- A synchronised BIU with nothing outstanding takes no step (R101). -/
theorem biuStep_none {s : State} (sync : s.bk.unsync = false) (none : s.biu.pending = .none)
    (d : BiuDraw) : biuStep d s = s := by
  simp [biuStep, sync, none]

/-- A BIU step over an outstanding action answers it with the code it draws. -/
theorem biuStep_answers {s : State} (sync : s.bk.unsync = false) (out : Outstanding s) (d : BiuDraw)
    {good : Byte → Prop} (code : good (codeByte d.code)) : Answered good (biuStep d s) := by
  have completes : biuStep d s = actionCompletes d s := by
    rcases out.1 with p | p <;> simp [biuStep, sync, p]
  rw [completes]
  refine ⟨rfl, ctrlInt_ctrlWithInt _ _, ?_⟩
  show good (statusWithCode s.biu.status d.code &&& 0xF8)
  rwa [statusWithCode_masked]

/-- The code such a step draws is that of the Done event it logs. -/
theorem doneCode?_outstanding {s : State} (sync : s.bk.unsync = false) (out : Outstanding s)
    (d : BiuDraw) : doneCode? s (.biu d) = some (codeByte d.code) := by
  rcases out.1 with p | p <;> simp [doneCode?, sync, p]

/-! Runs with what the premises of R118 remember -/

/-- What follows from two premises on an event holds along a run if both do. -/
theorem Along.imp₂ {P Q R : Watch → State → Event → Prop} {w : Watch} {s : State} {es : List Event}
    (imp : ∀ w s e, P w s e → Q w s e → R w s e) (hp : Along P w s es) (hq : Along Q w s es) :
    Along R w s es := by
  induction es generalizing w s with
  | nil => trivial
  | cons e es ih => exact ⟨imp w s e hp.1 hq.1, ih hp.2 hq.2⟩

/-- Draws under two premises are draws under both at once. -/
theorem Draws.and {P Q : Option Sent → Byte → Prop} {s : State} {es : List Event}
    (hp : Draws P s es) (hq : Draws Q s es) :
    Draws (fun sent code => P sent code ∧ Q sent code) s es :=
  Along.imp₂ (fun _ _ _ p q code hc => ⟨p code hc, q code hc⟩) hp hq

/-- What every event of a list keeps where the premise holds of it, the list keeps. -/
theorem moves_along {Q : Watch → State → Event → Prop} {J : Watch → State → Prop} {w : Watch}
    {s : State} {es : List Event} (along : Along Q w s es)
    (kept : ∀ e ∈ es, ∀ w s, Q w s e → J w s → J (w.next s e) (move e s)) (start : J w s) :
    ∃ w', J w' (moves es s) := by
  induction es generalizing w s with
  | nil => exact ⟨w, start⟩
  | cons e es ih =>
    obtain ⟨here, rest⟩ := along
    rw [after_eq] at rest
    exact ih rest (fun f hf => kept f (List.mem_cons_of_mem e hf))
      (kept e List.mem_cons_self w s here start)

/-- A synchronised bus stays so under an event before which the engine triggers only where nothing
is outstanding (R111). -/
theorem move_sync {e : Event} {s : State} (sync : s.bk.unsync = false)
    (settled : (triggers? s).isSome = true → s.biu.pending = .none) :
    (move e s).bk.unsync = false := by
  by_contra unsync
  obtain ⟨-, -, triggers, outstanding⟩ := move_sets_unsync sync (by simpa using unsync)
  exact outstanding (settled triggers)

end Sys2Proof.Machine
end

section
/-! PROOFS. What a slave's answer makes of a WRITE and of a START, over every interleaving. -/

namespace Sys2Proof.Machine

/-! WRITE in faithful mode (R118, R160 to R162) -/

/-- How far a WRITE has come on a synchronised bus whose slave acknowledges its data byte or does
not. -/
inductive WriteRun (ack : Bool) (s : State) : Prop
  | triggering (busy : s.eng.busy = true) (q : s.eng.eseq = .sWriteTrig)
      (none : s.biu.pending = .none)
  | waiting (busy : s.eng.busy = true) (q : s.eng.eseq = .sWritePoll)
      (wait : Outstanding s ∨ Answered (fun code => code = 0x28 ↔ ack = true) s)
  | ended (idle : s.eng.busy = false)
      (result : if ack then s.hr.result = 0x00 ∧ s.eng.phase = .transferring
        else s.hr.result = 0x05 ∧ s.eng.phase = .error)

/-- A WRITE triggers only where nothing is outstanding. -/
theorem WriteRun.pending_of_triggers {ack : Bool} {s : State} (run : WriteRun ack s)
    (triggers : (triggers? s).isSome = true) : s.biu.pending = .none := by
  cases run with
  | triggering busy q none => exact none
  | waiting busy q wait => simp [triggers?, q] at triggers
  | ended idle result => simp [triggers?, idle] at triggers

/-- An engine step of a WRITE triggers, spins, or ends with the slave's answer. -/
theorem engineMove_writeRun {ack : Bool} {s : State} (busy : s.eng.busy = true)
    (faithful : s.cfg.params.byteWaitBudget = .unbounded) (run : WriteRun ack s) :
    WriteRun ack (engineMove s) := by
  cases run with
  | triggering _ q none =>
    have triggered : engineMove s = writeTrigger s.eng.opArg s := by simp [engineMove, q]
    rw [triggered]
    exact .waiting busy rfl (.inl ⟨.inr rfl, (by decide : ctrlInt 0x04 = false)⟩)
  | waiting _ q wait =>
    rcases wait with out | ⟨none, int, code⟩
    · rw [engineMove_spin (by rw [q]; exact congrArg some faithful)
        (by rw [awaited, q]; exact out.2)]
      exact .waiting busy q (.inl out)
    · have answered : engineMove s =
          if dataAcked s.biu.status then finish .ok (some .transferring) s
          else fail .dataNack s := by simp [engineMove, q, writePoll, int]
      rw [answered]
      rw [← dataAcked_iff, Bool.coe_iff_coe] at code
      rw [code]
      cases ack
      · exact .ended rfl ⟨rfl, rfl⟩
      · exact .ended rfl ⟨rfl, rfl⟩
  | ended idle result => simp [idle] at busy

/-- A BIU step while a WRITE runs answers its data byte, or does nothing. -/
theorem biuStep_writeRun {ack : Bool} {s : State} (busy : s.eng.busy = true)
    (sync : s.bk.unsync = false) (d : BiuDraw) (draw : codeByte d.code = 0x28 ↔ ack = true)
    (run : WriteRun ack s) : WriteRun ack (biuStep d s) := by
  have eng := (biuStep_frame d s).2.1
  cases run with
  | triggering _ q none =>
    rw [biuStep_none sync none]
    exact .triggering busy q none
  | waiting _ q wait =>
    rcases wait with out | answered
    · exact .waiting (by rw [eng, busy]) (by rw [eng, q]) (.inr (biuStep_answers sync out d draw))
    · rw [biuStep_none sync answered.1]
      exact .waiting busy q (.inr answered)
  | ended idle result => simp [idle] at busy

/-- A host access while a WRITE runs leaves it where it is. -/
theorem hostStep_writeRun {ack : Bool} {s : State} (busy : s.eng.busy = true) (a : HostAccess)
    (run : WriteRun ack s) : WriteRun ack (hostStep a s) := by
  obtain ⟨eng, biu, -⟩ := hostStep_unmoved a busy
  cases run with
  | triggering _ q none =>
    exact .triggering (by rw [eng, busy]) (by rw [eng, q]) (by rw [biu, none])
  | waiting _ q wait =>
    refine .waiting (by rw [eng, busy]) (by rw [eng, q]) ?_
    unfold Outstanding Answered at wait ⊢
    rwa [biu]
  | ended idle result => simp [idle] at busy

/-- What the proof of O56 carries along the run. -/
structure WriteInv (ack : Bool) (s : State) : Prop where
  faithful : s.cfg.params.byteWaitBudget = .unbounded
  sync : s.bk.unsync = false
  run : WriteRun ack s

theorem move_writeInv {ack : Bool} {e : Event} {s : State} (inv : WriteInv ack s)
    (noReset : e ≠ .reset) (noCmd : Event.isCmdWrite e = false)
    (draws : ∀ d, e = .biu d → (codeByte d.code = 0x28 ↔ ack = true)) :
    WriteInv ack (move e s) := by
  obtain ⟨faithful, sync, run⟩ := inv
  refine ⟨by rw [move_cfg, faithful], move_sync sync run.pending_of_triggers, ?_⟩
  cases busy : s.eng.busy
  · obtain ⟨eng, result, -⟩ := move_sameResults busy noReset noCmd
    cases run with
    | triggering b q none => simp [busy] at b
    | waiting b q wait => simp [busy] at b
    | ended idle ended => exact .ended (by rw [eng, idle]) (by rwa [eng, result])
  · cases e with
    | host a => exact hostStep_writeRun busy a run
    | engine => rw [move_engine busy]; exact engineMove_writeRun busy faithful run
    | biu d => exact biuStep_writeRun busy sync d (draws d rfl) run
    | reset => exact absurd rfl noReset

/-- Settles O56: every event keeps `WriteInv`, and a WRITE that has ended has its answer. -/
theorem writeReportsSlavesAnswer : Obligations.WriteReportsSlavesAnswer := by
  unfold Obligations.WriteReportsSlavesAnswer
  intro s t es ack busy trig faithful sync none noReset noCmd draws hrun idle
  obtain rfl := Host.Outcome.next.inj ((runPlan_eq es s).symm.trans hrun)
  have inv : WriteInv ack (moves es s) :=
    moves_keep (fun e he t inv => move_writeInv inv (fun h => noReset (h ▸ he)) (noCmd e he)
      (fun d hd => draws d (hd ▸ he))) ⟨faithful, sync, .triggering busy trig none⟩
  cases inv.run with
  | triggering b q none => simp [b] at idle
  | waiting b q wait => simp [b] at idle
  | ended _ result => exact result

end Sys2Proof.Machine
end

section
/-! PROOFS. What a slave's answer makes of a START, over every interleaving in which the BIU is
responsive. -/

namespace Sys2Proof.Machine

/-- The status code that acknowledges an address in a direction (R80, R143). -/
def slaAckCode (dir : Direction) : Byte :=
  match dir with
  | .write => 0x18
  | .read => 0x40

/-- A START's wait under RESPONSIVE(WAIT_BUDGET), the action sent still outstanding: as many polls
are left as the budget has beyond those taken. -/
structure Awaits (sent : Sent) (w : Watch) (s : State) : Prop where
  out : Outstanding s
  sent : w.sent = some sent
  unanswered : w.answered = false
  left : ∃ n, s.eng.cnt = .polls n ∧ n + w.polled = s.cfg.params.waitBudget

/-- How far a START with operand `arg` has come on a synchronised bus whose slave acknowledges its
address or does not. -/
inductive StartRun (arg : Byte) (ack : Bool) (w : Watch) (s : State) : Prop
  | triggering (busy : s.eng.busy = true) (latched : s.eng.opArg = arg)
      (q : s.eng.eseq = .sStartTrig) (none : s.biu.pending = .none)
  | starting (busy : s.eng.busy = true) (latched : s.eng.opArg = arg)
      (q : s.eng.eseq = .sStartPoll1) (dir : s.eng.dir = Direction.ofBit (argBit0 arg))
      (wait : Awaits .start w s ∨ Answered (fun code => code = 0x08 ∨ code = 0x10) s)
  | addressing (busy : s.eng.busy = true) (latched : s.eng.opArg = arg)
      (q : s.eng.eseq = .sStartPoll2) (dir : s.eng.dir = Direction.ofBit (argBit0 arg))
      (wait : Awaits (.sla arg) w s ∨
        Answered (fun code => code = slaAckCode s.eng.dir ↔ ack = true) s)
  | ended (idle : s.eng.busy = false) (dir : s.eng.dir = Direction.ofBit (argBit0 arg))
      (result : if ack then s.hr.result = 0x00 ∧ s.eng.phase = .addressSent
        else s.hr.result = 0x04 ∧ s.eng.phase = .error)

section
variable {arg : Byte} {ack : Bool} {budget : Nat} {w : Watch} {s : State}

/-- A START triggers only where nothing is outstanding: its address frame follows the answer. -/
theorem StartRun.pending_of_triggers (run : StartRun arg ack w s)
    (triggers : (triggers? s).isSome = true) : s.biu.pending = .none := by
  cases run with
  | triggering busy latched q none => exact none
  | starting busy latched q dir wait =>
    rcases wait with ⟨⟨-, int⟩, -, -, -⟩ | ⟨none, -⟩
    · simp [triggers?, q, int] at triggers
    · exact none
  | addressing busy latched q dir wait => simp [triggers?, q] at triggers
  | ended idle dir result => simp [triggers?, idle] at triggers

/-- What the premises of R118 say of one event of such a START: the BIU is responsive, confirms the
START condition, and answers the SLA byte as `ack` says. -/
structure AnswersPromptly (arg : Byte) (ack : Bool) (budget : Nat) (w : Watch) (s : State)
    (e : Event) : Prop where
  responsive : e = .engine → polls s = true → budget ≤ w.polled + 1 → w.answered = true
  confirms : w.sent = some .start → ∀ code, doneCode? s e = some code → code = 0x08 ∨ code = 0x10
  answers : w.sent = some (.sla arg) → ∀ code, doneCode? s e = some code →
    (code = slaAckCode (Direction.ofBit (argBit0 arg)) ↔ ack = true)

/-! One event in one of START's waits -/

/-- A poll of a responsive wait whose action is outstanding is not its last one: it counts down. -/
theorem Awaits.poll {sent : Sent} (wait : Awaits sent w s)
    (busy : s.eng.busy = true) (q : s.eng.eseq = .sStartPoll1 ∨ s.eng.eseq = .sStartPoll2)
    (responsive : polls s = true → s.cfg.params.waitBudget ≤ w.polled + 1 → w.answered = true) :
    (∃ c, engineMove s = s.withEng { s.eng with cnt := c }) ∧
      Awaits sent (w.next s .engine) (engineMove s) := by
  obtain ⟨out, hsent, unanswered, n, cnt, left⟩ := wait
  have isPoll : polls s = true := by rcases q with q | q <;> simp [polls, busy, q, Sequencer.isPoll]
  have silent : triggers? s = none := by rcases q with q | q <;> simp [triggers?, q, out.2]
  have notLast : ¬ s.cfg.params.waitBudget ≤ w.polled + 1 := fun last => by
    simp [responsive isPoll last] at unanswered
  obtain ⟨m, rfl⟩ : ∃ m, n = m + 2 := ⟨n - 2, by omega⟩
  have counts : engineMove s = s.withEng { s.eng with cnt := .polls (m + 1) } := by
    rcases q with q | q <;>
      simp [engineMove, q, startPoll1, startPoll2, out.2, pollBounded_more s _ _ m cnt]
  rw [counts]
  have polled : w.next s .engine = { w with polled := w.polled + 1 } := by
    simp [Watch.next, silent, isPoll]
  rw [polled]
  exact ⟨⟨_, rfl⟩, out, hsent, unanswered, m + 1, rfl, by simpa using by omega⟩

/-- A BIU step in a START's wait answers the action sent, or does nothing. -/
theorem biuStep_wait {sent : Sent} {good : Byte → Prop}
    (sync : s.bk.unsync = false) (d : BiuDraw)
    (draws : w.sent = some sent → ∀ code, doneCode? s (.biu d) = some code → good code)
    (wait : Awaits sent w s ∨ Answered good s) : Answered good (biuStep d s) := by
  rcases wait with wait | answered
  · exact biuStep_answers sync wait.out d
      (draws wait.sent _ (doneCode?_outstanding sync wait.out d))
  · rwa [biuStep_none sync answered.1]

/-! One event -/

/-- A host access while a START runs leaves it where it is. -/
theorem hostStep_startRun (busy : s.eng.busy = true) (a : HostAccess)
    (run : StartRun arg ack w s) : StartRun arg ack w (hostStep a s) := by
  obtain ⟨eng, biu, -, -, cfg, -⟩ := hostStep_unmoved a busy
  have waits : ∀ sent good, Awaits sent w s ∨ Answered good s →
      Awaits sent w (hostStep a s) ∨ Answered good (hostStep a s) := fun sent good wait => by
    rcases wait with ⟨out, hsent, unanswered, left⟩ | answered
    · exact .inl ⟨by unfold Outstanding; rwa [biu], hsent, unanswered, by rwa [eng, cfg]⟩
    · exact .inr (by unfold Answered; rwa [biu])
  cases run with
  | triggering _ latched q none =>
    exact .triggering (by rw [eng, busy]) (by rw [eng, latched]) (by rw [eng, q])
      (by rw [biu, none])
  | starting _ latched q dir wait =>
    exact .starting (by rw [eng, busy]) (by rw [eng, latched]) (by rw [eng, q]) (by rw [eng, dir])
      (waits _ _ wait)
  | addressing _ latched q dir wait =>
    exact .addressing (by rw [eng, busy]) (by rw [eng, latched]) (by rw [eng, q]) (by rw [eng, dir])
      (by rw [eng]; exact waits _ _ wait)
  | ended idle dir result => simp [idle] at busy

/-- A BIU step while a START runs answers what it sent, or does nothing. -/
theorem biuStep_startRun (busy : s.eng.busy = true) (sync : s.bk.unsync = false)
    (d : BiuDraw) (premise : AnswersPromptly arg ack budget w s (.biu d))
    (run : StartRun arg ack w s) : StartRun arg ack (w.next s (.biu d)) (biuStep d s) := by
  have eng := (biuStep_frame d s).2.1
  cases run with
  | triggering _ latched q none =>
    rw [biuStep_none sync none]
    exact .triggering busy latched q none
  | starting _ latched q dir wait =>
    exact .starting (by rw [eng, busy]) (by rw [eng, latched]) (by rw [eng, q]) (by rw [eng, dir])
      (.inr (biuStep_wait sync d premise.confirms wait))
  | addressing _ latched q dir wait =>
    exact .addressing (by rw [eng, busy]) (by rw [eng, latched]) (by rw [eng, q]) (by rw [eng, dir])
      (.inr (by rw [eng]; exact biuStep_wait sync d (dir ▸ premise.answers) wait))
  | ended idle dir result => simp [idle] at busy

/-- An engine step of a START triggers the START condition, polls, sends the address frame, or ends
with the slave's answer. -/
theorem engineMove_startRun (busy : s.eng.busy = true)
    (premise : AnswersPromptly arg ack s.cfg.params.waitBudget w s .engine)
    (run : StartRun arg ack w s) : StartRun arg ack (w.next s .engine) (engineMove s) := by
  cases run with
  | triggering _ latched q none =>
    have triggered : engineMove s = startTrigger (Direction.ofBit (argBit0 arg)) s := by
      simp [engineMove, q, latched]
    have watched : w.next s .engine = ⟨some .start, false, 0⟩ := by
      simp [Watch.next, triggers?, busy, q]
    rw [triggered, watched]
    exact .starting busy latched rfl rfl
      (.inl ⟨⟨.inl rfl, (by decide : ctrlInt 0x24 = false)⟩, rfl, rfl, _, rfl, rfl⟩)
  | starting _ latched q dir wait =>
    rcases wait with wait | ⟨none, int, code⟩
    · obtain ⟨⟨c, counts⟩, wait'⟩ := wait.poll busy (.inl q) (premise.responsive rfl)
      rw [counts] at wait' ⊢
      exact .starting busy latched q dir (.inl wait')
    · have confirmed : startConfirmed s.biu.status = true := (startConfirmed_iff _).mpr code
      have sent : engineMove s = sendAddress (argAddr arg) (Direction.ofBit (argBit0 arg)) s := by
        simp [engineMove, q, startPoll1, int, confirmed, latched]
      have watched : w.next s .engine = ⟨some (.sla arg), false, 0⟩ := by
        simp [Watch.next, triggers?, busy, q, int, confirmed, latched]
      rw [sent, watched]
      exact .addressing busy latched rfl dir
        (.inl ⟨⟨.inr rfl, (by decide : ctrlInt 0x04 = false)⟩, rfl, rfl, _, rfl, rfl⟩)
  | addressing _ latched q dir wait =>
    rcases wait with wait | ⟨none, int, code⟩
    · obtain ⟨⟨c, counts⟩, wait'⟩ := wait.poll busy (.inr q) (premise.responsive rfl)
      rw [counts] at wait' ⊢
      exact .addressing busy latched q dir (.inl wait')
    · have answer : addressAcked s.eng.dir s.biu.status = ack :=
        Bool.coe_iff_coe.mp ((addressAcked_iff _ _).trans code)
      have answered : engineMove s = if ack then finish .ok (some .addressSent) s
          else fail .addrNack s := by simp [engineMove, q, startPoll2, int, answer]
      rw [answered]
      cases ack
      · exact .ended rfl dir ⟨rfl, rfl⟩
      · exact .ended rfl dir ⟨rfl, rfl⟩
  | ended idle dir result => simp [idle] at busy

/-- What the proofs of O54 and O55 carry along the run. -/
structure StartInv (arg : Byte) (ack : Bool) (budget : Nat) (w : Watch) (s : State) : Prop where
  budget : s.cfg.params.waitBudget = budget
  sync : s.bk.unsync = false
  run : StartRun arg ack w s

theorem move_startInv {e : Event} (inv : StartInv arg ack budget w s) (noReset : e ≠ .reset)
    (noCmd : Event.isCmdWrite e = false) (premise : AnswersPromptly arg ack budget w s e) :
    StartInv arg ack budget (w.next s e) (move e s) := by
  obtain ⟨rfl, sync, run⟩ := inv
  refine ⟨by rw [move_cfg], move_sync sync run.pending_of_triggers, ?_⟩
  cases busy : s.eng.busy
  · obtain ⟨eng, result, -⟩ := move_sameResults busy noReset noCmd
    cases run with
    | ended idle dir ended =>
      exact .ended (by rw [eng, idle]) (by rw [eng, dir]) (by rwa [eng, result])
    | triggering b latched q none => simp [busy] at b
    | starting b latched q dir wait => simp [busy] at b
    | addressing b latched q dir wait => simp [busy] at b
  · cases e with
    | host a => exact hostStep_startRun busy a run
    | engine => rw [move_engine busy]; exact engineMove_startRun busy premise run
    | biu d => exact biuStep_startRun busy sync d premise run
    | reset => exact absurd rfl noReset

end

/-! Whole runs -/

/-- The common premises of O54 and O55: a START latched on a synchronised bus with nothing
outstanding, no reset and no other command, and a responsive BIU. -/
structure PromptStart (arg : Byte) (s : State) (es : List Event) : Prop where
  busy : s.eng.busy = true
  trig : s.eng.eseq = .sStartTrig
  latched : s.eng.opArg = arg
  sync : s.bk.unsync = false
  none : s.biu.pending = .none
  noReset : Event.reset ∉ es
  noCmd : ∀ e ∈ es, Event.isCmdWrite e = false
  responsive : Responsive s.cfg.params.waitBudget s es

/-- A START whose START condition is confirmed and whose address is acknowledged, or not, has ended
accordingly once it has ended. -/
theorem PromptStart.outcome {arg : Byte} {s t : State} {es : List Event}
    (start : PromptStart arg s es) (ack : Bool) {P : Option Sent → Byte → Prop}
    (draws : Draws P s es)
    (confirms : ∀ code, P (some .start) code → code = 0x08 ∨ code = 0x10)
    (answers : ∀ code, P (some (.sla arg)) code →
      (code = slaAckCode (Direction.ofBit (argBit0 arg)) ↔ ack = true))
    (hrun : runPlan s es = .next t) (idle : t.eng.busy = false) :
    t.eng.dir = Direction.ofBit (argBit0 arg) ∧ t.bk.unsync = false ∧
      if ack then t.hr.result = 0x00 ∧ t.eng.phase = .addressSent
      else t.hr.result = 0x04 ∧ t.eng.phase = .error := by
  obtain rfl := Host.Outcome.next.inj ((runPlan_eq es s).symm.trans hrun)
  have premises : Along (AnswersPromptly arg ack s.cfg.params.waitBudget) .fresh s es :=
    Along.imp₂ (fun w t e responsive draws => ⟨responsive,
      fun sent code done => confirms code (sent ▸ draws code done),
      fun sent code done => answers code (sent ▸ draws code done)⟩) start.responsive draws
  have begins : StartInv arg ack s.cfg.params.waitBudget .fresh s :=
    ⟨rfl, start.sync, .triggering start.busy start.latched start.trig start.none⟩
  obtain ⟨w, -, sync, run⟩ := moves_along premises
    (fun e he w t premise inv =>
      move_startInv inv (fun h => start.noReset (h ▸ he)) (start.noCmd e he) premise) begins
  cases run with
  | ended _ dir result => exact ⟨dir, sync, result⟩
  | triggering b latched q none => simp [b] at idle
  | starting b latched q dir wait => simp [b] at idle
  | addressing b latched q dir wait => simp [b] at idle

/-- Settles O54: ACK_SLAVE confirms the START condition and acknowledges the SLA byte. -/
theorem startSucceedsOnAckingSlave : Obligations.StartSucceedsOnAckingSlave := by
  unfold Obligations.StartSucceedsOnAckingSlave
  intro a d s t es busy trig latched sync none noReset noCmd responsive draws hrun idle
  have answers : ∀ code, ackDraw a (some (.sla (slaByte a d))) code → code = slaAckCode d := by
    rintro code ⟨-, write, read, -⟩
    cases d
    · exact write rfl
    · exact read rfl
  obtain ⟨dir, sync', result⟩ := PromptStart.outcome
    ⟨busy, trig, latched, sync, none, noReset, noCmd, responsive⟩ true draws
    (fun code draw => draw.1 rfl) (fun code draw => by simpa using answers code draw) hrun idle
  exact ⟨result.1, result.2, by simpa using dir, sync'⟩

/-- Settles O55: an absent slave answers the SLA byte with a code that does not acknowledge it. -/
theorem startReportsAbsentSlave : Obligations.StartReportsAbsentSlave := by
  unfold Obligations.StartReportsAbsentSlave
  intro a d s t es busy trig latched sync none noReset noCmd responsive absent confirmed hrun idle
  have answers : ∀ code, absentDraw a (some (.sla (slaByte a d))) code → code ≠ slaAckCode d := by
    intro code ⟨write, read⟩
    cases d
    · rw [write rfl]; decide
    · rw [read rfl]; decide
  obtain ⟨-, -, result⟩ := PromptStart.outcome
    ⟨busy, trig, latched, sync, none, noReset, noCmd, responsive⟩ false (absent.and confirmed)
    (fun code draw => draw.2 rfl) (fun code draw => by simpa using answers code draw.1) hrun idle
  exact result

end Sys2Proof.Machine
end

section
/-! PROOFS. The statements on 41_initialize.md: the divisor of a configuration, and the step of INIT
that programs it. -/

namespace Sys2Proof.Machine

/-! The divisor (R130, R131) -/

/-- BIU.BITRATE's 8 bits hold the divisor of a configuration (R131, condition 3). -/
theorem divisorByte_toNat (c : Config) : (divisorByte c.params).toNat = divisor c.params := by
  obtain ⟨-, -, -, fits, -⟩ := (Params.wellFormed_iff c.params).mp c.wf
  exact Nat.mod_eq_of_lt (Nat.lt_succ_of_le fits)

/-- Settles O26, from the conditions of R131 that every configuration meets. -/
theorem divisorFitsItsRegister : Obligations.DivisorFitsItsRegister := by
  unfold Obligations.DivisorFitsItsRegister
  intro c
  obtain ⟨-, -, noUnderflow, -, aboveFloor, -⟩ := (Params.wellFormed_iff c.params).mp c.wf
  exact ⟨noUnderflow, divisorByte_toNat c, (divisorByte_toNat c).symm ▸ aboveFloor⟩

/-! INIT's step (R132, R133) -/

/-- Where the sequencer stands at INIT's step, executing INIT is that step (R107). -/
theorem exec_init_at_step (ignored : Byte) {s : State} (atStep : s.eng.eseq = .sInit) :
    exec (.init ignored) s = .next (initStep s) := by
  simp only [exec, execInit, atStep]

/-- INIT's step, field by field: the phase, BIU.CTRL, BIU.DATA and the bus log are kept (R133). -/
theorem initStep_eq (s : State) : initStep s = { s with
    hr := { s.hr with result := ResultCode.ok.byte }
    eng := { s.eng with busy := false, eseq := .sNone }
    biu := { s.biu with
      status := statusWithoutPrescaler s.biu.status, bitrate := divisorByte s.cfg.params }
    bk := { s.bk with initialized := true } } := rfl

/-- Settles O1: the sequencer stands at INIT's step. -/
theorem initProgramsDivisor : Obligations.InitProgramsDivisor := by
  unfold Obligations.InitProgramsDivisor
  intro ignored s atStep
  rw [exec_init_at_step ignored atStep, initStep_eq]
  rfl

end Sys2Proof.Machine
end

section
/-! PROOFS. The statements of 42_start.md on single steps: START's trigger and its two polls, each
with its whole next state. -/

namespace Sys2Proof.Machine

/-! Where the sequencer stands at a step of START, executing START is that step (R107) -/

section
variable (addr : BitVec 7) (dir : Direction) {s : State}

theorem exec_start_at_trigger (atTrigger : s.eng.eseq = .sStartTrig) :
    exec (.start addr dir) s = .next (startTrigger dir s) := by
  simp only [exec, execStart, atTrigger]

theorem exec_start_at_firstPoll (atPoll : s.eng.eseq = .sStartPoll1) :
    exec (.start addr dir) s = .next (startPoll1 addr dir s) := by
  simp only [exec, execStart, atPoll]

theorem exec_start_at_secondPoll (atPoll : s.eng.eseq = .sStartPoll2) :
    exec (.start addr dir) s = .next (startPoll2 s) := by
  simp only [exec, execStart, atPoll]

/-! What each step does (R141 to R143) -/

/-- START's trigger, field by field: the host registers, the phase and BIU.DATA are kept. -/
theorem startTrigger_eq (s : State) : startTrigger dir s = { s with
    eng := { s.eng with
      dir := dir, cnt := .polls s.cfg.params.waitBudget, eseq := .sStartPoll1 }
    biu := { s.biu with ctrl := 0x24, pending := .start }
    bk := { s.bk with
      unsync := s.bk.unsync || decide (s.biu.pending ≠ .none)
      busLog := s.bk.busLog ++ [.trig .start s.biu.data] } } := rfl

/-- The address frame, field by field: BIU.DATA already holds the SLA byte when the trigger is
logged (R111). -/
theorem sendAddress_eq (s : State) : sendAddress addr dir s = { s with
    eng := { s.eng with
      phase := .started, cnt := .polls s.cfg.params.waitBudget, eseq := .sStartPoll2 }
    biu := { s.biu with data := slaByte addr dir, ctrl := 0x04, pending := .xfer }
    bk := { s.bk with
      unsync := s.bk.unsync || decide (s.biu.pending ≠ .none)
      busLog := s.bk.busLog ++ [.trig .tx (slaByte addr dir)] } } := rfl

/-- The first poll that sees INT sends the address frame or fails, as the status check says. -/
theorem startPoll1_flag (flag : ctrlInt s.biu.ctrl = true) :
    startPoll1 addr dir s =
      if startConfirmed s.biu.status then sendAddress addr dir s else fail .startBadStatus s := by
  rw [startPoll1, flag, pollBounded_flag]

theorem startPoll1_last (noFlag : ctrlInt s.biu.ctrl = false) (cnt : s.eng.cnt = .polls 1) :
    startPoll1 addr dir s = fail .startTimeout (s.withEng { s.eng with cnt := .polls 0 }) := by
  rw [startPoll1, noFlag, pollBounded_last _ _ _ cnt]

theorem startPoll1_more {n : Nat} (noFlag : ctrlInt s.biu.ctrl = false)
    (cnt : s.eng.cnt = .polls (n + 2)) :
    startPoll1 addr dir s = s.withEng { s.eng with cnt := .polls (n + 1) } := by
  rw [startPoll1, noFlag, pollBounded_more _ _ _ n cnt]

/-- The second poll that sees INT ends START, as the acknowledge check for its direction says. -/
theorem startPoll2_flag (flag : ctrlInt s.biu.ctrl = true) :
    startPoll2 s =
      if addressAcked s.eng.dir s.biu.status then finish .ok (some .addressSent) s
      else fail .addrNack s := by
  rw [startPoll2, flag, pollBounded_flag]

theorem startPoll2_last (noFlag : ctrlInt s.biu.ctrl = false) (cnt : s.eng.cnt = .polls 1) :
    startPoll2 s = fail .addrTimeout (s.withEng { s.eng with cnt := .polls 0 }) := by
  rw [startPoll2, noFlag, pollBounded_last _ _ _ cnt]

theorem startPoll2_more {n : Nat} (noFlag : ctrlInt s.biu.ctrl = false)
    (cnt : s.eng.cnt = .polls (n + 2)) :
    startPoll2 s = s.withEng { s.eng with cnt := .polls (n + 1) } := by
  rw [startPoll2, noFlag, pollBounded_more _ _ _ n cnt]

end

/-- Settles O2: the sequencer stands at START's trigger. -/
theorem startTriggersStartCondition : Obligations.StartTriggersStartCondition := by
  unfold Obligations.StartTriggersStartCondition
  intro addr dir s atTrigger
  rw [exec_start_at_trigger addr dir atTrigger, startTrigger_eq]

/-- Settles O3: with INT seen, the status check decides, and its two codes are those of R80; without
it, the counter does. -/
theorem startFirstPoll : Obligations.StartFirstPoll := by
  unfold Obligations.StartFirstPoll
  intro addr dir s atPoll
  rw [exec_start_at_firstPoll addr dir atPoll]
  refine ⟨fun flag confirmed => ?_, fun flag notStart notRepStart => ?_,
    fun noFlag last => ?_, fun n noFlag more => ?_⟩
  · rw [startPoll1_flag addr dir flag, if_pos ((startConfirmed_iff _).mpr confirmed),
      sendAddress_eq, slaByte_eq]
  · rw [startPoll1_flag addr dir flag,
      if_neg (mt (startConfirmed_iff _).mp (not_or.mpr ⟨notStart, notRepStart⟩))]
    rfl
  · rw [startPoll1_last addr dir noFlag last]
    rfl
  · rw [startPoll1_more addr dir noFlag more]
    rfl

/-- Settles O4: with INT seen, the acknowledge check decides by the code of the engine's direction;
without it, the counter does. -/
theorem startSecondPoll : Obligations.StartSecondPoll := by
  unfold Obligations.StartSecondPoll
  intro addr dir s atPoll
  rw [exec_start_at_secondPoll addr dir atPoll]
  refine ⟨fun flag acked => ?_, fun flag notAcked => ?_, fun noFlag last => ?_,
    fun n noFlag more => ?_⟩
  · rw [startPoll2_flag flag, if_pos ((addressAcked_iff _ _).mpr acked)]
    rfl
  · rw [startPoll2_flag flag, if_neg (mt (addressAcked_iff _ _).mp notAcked)]
    rfl
  · rw [startPoll2_last noFlag last]
    rfl
  · rw [startPoll2_more noFlag more]
    rfl

end Sys2Proof.Machine
end

section
/-! PROOFS. R145: how many engine steps a START takes at most, and on a silent BIU exactly. -/

namespace Sys2Proof.Machine

theorem engineSteps_cons (e : Event) (es : List Event) :
    engineSteps (e :: es) = engineSteps [e] + engineSteps es :=
  List.countP_append (l₁ := [e])

theorem engineSteps_singleton_le (e : Event) : engineSteps [e] ≤ 1 :=
  List.countP_le_length

theorem waitBudget_pos (c : Config) : 1 ≤ c.params.waitBudget := by
  obtain ⟨-, -, -, -, -, wait, -⟩ := (Params.wellFormed_iff c.params).mp c.wf
  exact wait

/-! Any BIU -/

/-- A running START has an engine step left. -/
theorem InStart.stepsLeft_pos {s : State} (start : InStart s) : 1 ≤ startStepsLeft s := by
  rcases start.2 with q | ⟨q | q, n, cnt⟩
  · simp [startStepsLeft, q]
  · simp only [startStepsLeft, q, cnt]
    omega
  · simp [startStepsLeft, q, cnt]

/-- An event ends a running START or leaves it running, an engine step with one step less left. -/
theorem move_start_counts {s : State} {e : Event} (start : InStart s) (noReset : e ≠ .reset) :
    StartEnded (move e s) ∨
      InStart (move e s) ∧ engineSteps [e] + startStepsLeft (move e s) ≤ startStepsLeft s := by
  by_cases engine : e = .engine
  · subst engine
    rw [move_engine start.1]
    exact (engineMove_start start).imp_right
      (And.imp_right fun fewer => (Nat.add_comm _ _).trans_le fewer)
  · obtain ⟨runs, same⟩ := move_start start engine noReset
    have noStep : engineSteps [e] = 0 := by
      cases e with
      | engine => exact absurd rfl engine
      | host | biu | reset => rfl
    exact .inr ⟨runs, by rw [noStep, same, Nat.zero_add]⟩

/-- A list of events with all the engine steps a running START has left ends it along the way. -/
theorem start_ends_within {s : State} {es : List Event} (start : InStart s)
    (noReset : Event.reset ∉ es) (enough : startStepsLeft s ≤ engineSteps es) :
    ∃ pre suf, es = pre ++ suf ∧ engineSteps pre ≤ startStepsLeft s ∧
      StartEnded (moves pre s) := by
  induction es generalizing s with
  | nil => exact absurd (start.stepsLeft_pos.trans enough) (by decide)
  | cons e es ih =>
    rw [engineSteps_cons] at enough
    obtain ⟨notReset, noReset⟩ := List.ne_and_not_mem_of_not_mem_cons noReset
    rcases move_start_counts start notReset.symm with ended | ⟨runs, fewer⟩
    · exact ⟨[e], es, rfl, (engineSteps_singleton_le e).trans start.stepsLeft_pos, ended⟩
    · obtain ⟨pre, suf, rfl, within, ended⟩ := ih runs noReset (by omega)
      exact ⟨e :: pre, suf, rfl, by rw [engineSteps_cons]; omega, ended⟩

/-- Settles O48: at its trigger a START has 1 + 2 · WAIT_BUDGET engine steps left. -/
theorem startAlwaysEnds : Obligations.StartAlwaysEnds := by
  unfold Obligations.StartAlwaysEnds
  intro s es busy trig noReset enough
  have left : startStepsLeft s = 1 + 2 * s.cfg.params.waitBudget := by
    simp only [startStepsLeft, trig]
  obtain ⟨pre, suf, split, within, idle, outcome⟩ :=
    start_ends_within ⟨busy, .inl trig⟩ noReset (left.trans_le enough)
  exact ⟨pre, suf, _, split, left ▸ within, runPlan_eq pre s, idle, outcome⟩

/-! SILENT_BIU -/

/-- The state of a START latched in `s` after `k` engine steps on a silent BIU, while polls are
left: its trigger, then one poll less with each step. -/
def silentStart (s : State) : Nat → State
  | 0 => s
  | k + 1 =>
    let t := startTrigger (Direction.ofBit (argBit0 s.eng.opArg)) s
    t.withEng { t.eng with cnt := .polls (s.cfg.params.waitBudget - k) }

theorem silentStart_busy (s : State) (k : Nat) : (silentStart s k).eng.busy = s.eng.busy := by
  cases k <;> rfl

theorem silentStart_result (s : State) (k : Nat) :
    (silentStart s k).hr.result = s.hr.result := by
  cases k <;> rfl

theorem engineMove_at_trigger {s : State} (trig : s.eng.eseq = .sStartTrig) :
    engineMove s = startTrigger (Direction.ofBit (argBit0 s.eng.opArg)) s := by
  simp only [engineMove, trig]

theorem engineMove_at_firstPoll {s : State} (poll : s.eng.eseq = .sStartPoll1) :
    engineMove s = startPoll1 (argAddr s.eng.opArg) (Direction.ofBit (argBit0 s.eng.opArg)) s := by
  simp only [engineMove, poll]

/-- START's trigger does the same whatever a host access has changed before it. -/
theorem Unmoved.startTrigger {s t : State} (same : Unmoved s t) (dir : Direction) :
    Unmoved (startTrigger dir s) (startTrigger dir t) := by
  obtain ⟨eng, biu, busLog, unsync, cfg, cmd, result, rxdata⟩ := same
  rw [startTrigger_eq, startTrigger_eq]
  constructor <;> simp only [eng, biu, busLog, unsync, cfg, cmd, result, rxdata]

/-- A counter written is the same whatever a host access has changed before it. -/
theorem Unmoved.withCnt {s t : State} (same : Unmoved s t) (c : Budget) :
    Unmoved (s.withEng { s.eng with cnt := c }) (t.withEng { t.eng with cnt := c }) :=
  { same with eng := by simp only [State.withEng_eng, same.eng] }

/-- Once a START on a silent BIU has been triggered, it polls for a flag that is not set, and its
trigger is all that stands on the bus. -/
theorem Unmoved.of_triggered {s t : State} {k : Nat} (same : Unmoved (silentStart s (k + 1)) t) :
    t.eng.eseq = .sStartPoll1 ∧ ctrlInt t.biu.ctrl = false ∧
    t.eng.cnt = .polls (s.cfg.params.waitBudget - k) ∧ t.biu.pending = .start ∧
    t.bk.busLog = s.bk.busLog ++ [.trig .start s.biu.data] := by
  rw [same.eng, same.biu, same.busLog]
  have noFlag : ctrlInt 0x24 = false := by decide
  exact ⟨rfl, noFlag, rfl, rfl, rfl⟩

/-- An engine step on a silent BIU, with polls left after it: the trigger, or a poll that sees no
flag and counts down. -/
theorem engineMove_silentStart {s t : State} {k : Nat} (trig : s.eng.eseq = .sStartTrig)
    (same : Unmoved (silentStart s k) t) (left : k < s.cfg.params.waitBudget) :
    Unmoved (silentStart s (k + 1)) (engineMove t) := by
  cases k with
  | zero =>
    rw [engineMove_at_trigger (same.eng ▸ trig), same.eng]
    exact same.startTrigger _
  | succ k =>
    obtain ⟨poll, noFlag, cnt, -⟩ := same.of_triggered
    obtain ⟨n, more⟩ : ∃ n, s.cfg.params.waitBudget - k = n + 2 :=
      ⟨s.cfg.params.waitBudget - k - 2, by omega⟩
    have fewer : s.cfg.params.waitBudget - (k + 1) = n + 1 := by omega
    rw [engineMove_at_firstPoll poll, startPoll1_more _ _ noFlag (cnt.trans (congrArg _ more)),
      silentStart, fewer]
    exact same.withCnt _

/-- Under SILENT_BIU a START is where its engine steps have brought it, whatever the host does in
between, while polls are left. -/
theorem moves_silentStart {s t : State} {es : List Event} {k : Nat} (busy : s.eng.busy = true)
    (trig : s.eng.eseq = .sStartTrig) (silent : SilentBiu es) (noReset : Event.reset ∉ es)
    (same : Unmoved (silentStart s k) t) (left : k + engineSteps es ≤ s.cfg.params.waitBudget) :
    Unmoved (silentStart s (k + engineSteps es)) (moves es t) := by
  induction es generalizing t k with
  | nil => exact same
  | cons e es ih =>
    have busy' : t.eng.busy = true := by rw [same.eng, silentStart_busy, busy]
    have silent' : SilentBiu es := fun f hf => silent f (List.mem_cons_of_mem e hf)
    have noReset' : Event.reset ∉ es := fun h => noReset (List.mem_cons_of_mem e h)
    rw [engineSteps_cons, ← Nat.add_assoc] at left ⊢
    rw [moves_cons]
    refine ih silent' noReset' ?_ left
    cases e with
    | host a => exact same.trans (hostStep_unmoved a busy')
    | engine =>
      have step : engineSteps [Event.engine] = 1 := rfl
      rw [step] at left ⊢
      rw [move_engine busy']
      exact engineMove_silentStart trig same (by omega)
    | biu d => exact absurd (silent _ List.mem_cons_self) (by simp [Event.isBiu])
    | reset => exact absurd List.mem_cons_self noReset

/-- The poll that uses up WAIT_BUDGET on a silent BIU ends the START with START_TIMEOUT. -/
theorem engineMove_silentStart_last {s t : State} {k : Nat}
    (same : Unmoved (silentStart s (k + 1)) t) (spent : s.cfg.params.waitBudget = k + 1) :
    engineMove t = fail .startTimeout (t.withEng { t.eng with cnt := .polls 0 }) := by
  obtain ⟨poll, noFlag, cnt, -⟩ := same.of_triggered
  rw [spent, Nat.add_sub_cancel_left] at cnt
  rw [engineMove_at_firstPoll poll, startPoll1_last _ _ noFlag cnt]

/-- Settles O47: the engine steps taken say where the START is, and the next one after WAIT_BUDGET
is its last poll. -/
theorem startTimesOutOnSilentBiu : Obligations.StartTimesOutOnSilentBiu := by
  unfold Obligations.StartTimesOutOnSilentBiu
  intro s es busy trig silent noReset
  have reached : engineSteps es ≤ s.cfg.params.waitBudget →
      Unmoved (silentStart s (engineSteps es)) (moves es s) := fun left => by
    have same := moves_silentStart (k := 0) busy trig silent noReset (.refl s) (by omega)
    rwa [Nat.zero_add] at same
  refine ⟨fun left => ?_, fun spent => ?_⟩
  · have same := reached left
    refine ⟨_, runPlan_eq es s, ?_, same.result.trans (silentStart_result s _)⟩
    exact (congrArg Engine.busy same.eng).trans ((silentStart_busy s _).trans busy)
  · have same := reached spent.le
    obtain ⟨k, budget⟩ := Nat.exists_eq_add_of_le' (waitBudget_pos s.cfg)
    rw [spent, budget] at same
    have busy' : (moves es s).eng.busy = true := by rw [same.eng, silentStart_busy, busy]
    have ended : moves (es ++ [.engine]) s =
        fail .startTimeout ((moves es s).withEng { (moves es s).eng with cnt := .polls 0 }) := by
      rw [moves_append, moves_cons, moves_nil, move_engine busy',
        engineMove_silentStart_last same budget]
    obtain ⟨-, -, -, pending, busLog⟩ := same.of_triggered
    refine ⟨_, runPlan_eq _ s, ?_⟩
    rw [ended]
    exact ⟨rfl, rfl, rfl, pending, busLog⟩

end Sys2Proof.Machine
end

section
/-! PROOFS. The statements of 43_byte_transfer.md on single steps: the trigger and the poll of WRITE
and of READ_NACK, each with its whole next state. -/

namespace Sys2Proof.Machine

/-! A poll of a wait without its flag, by the mode the budget fixes (R115, R116) -/

section
variable {b : Budget} {s : State} (ok late : State → State)

theorem pollWithin_spin (unbounded : b = .unbounded) : pollWithin b false ok late s = s := by
  rw [unbounded, pollWithin_unbounded, pollUnbounded_spin]

theorem pollWithin_last {m : Nat} (bounded : b = .polls m) (cnt : s.eng.cnt = .polls 1) :
    pollWithin b false ok late s = late (s.withEng { s.eng with cnt := .polls 0 }) := by
  rw [bounded, pollWithin_polls, pollBounded_last _ _ _ cnt]

theorem pollWithin_more {m n : Nat} (bounded : b = .polls m) (cnt : s.eng.cnt = .polls (n + 2)) :
    pollWithin b false ok late s = s.withEng { s.eng with cnt := .polls (n + 1) } := by
  rw [bounded, pollWithin_polls, pollBounded_more _ _ _ n cnt]

end

/-! WRITE (R161, R162) -/

section
variable (data : Byte) {s : State}

/-- Where the sequencer stands at WRITE's trigger, executing WRITE is that step (R107). -/
theorem exec_write_at_trigger (atTrigger : s.eng.eseq = .sWriteTrig) :
    exec (.write data) s = .next (writeTrigger data s) := by
  simp only [exec, execWrite, atTrigger]

/-- Where the sequencer stands at WRITE's poll, executing WRITE is that poll (R107). -/
theorem exec_write_at_poll (atPoll : s.eng.eseq = .sWritePoll) :
    exec (.write data) s = .next (writePoll s) := by
  simp only [exec, execWrite, atPoll]

/-- WRITE's trigger, field by field: BIU.DATA already holds the byte when the trigger is logged
(R111). -/
theorem writeTrigger_eq (s : State) : writeTrigger data s = { s with
    eng := { s.eng with cnt := s.cfg.params.byteWaitBudget, eseq := .sWritePoll }
    biu := { s.biu with data := data, ctrl := 0x04, pending := .xfer }
    bk := { s.bk with
      unsync := s.bk.unsync || decide (s.biu.pending ≠ .none)
      busLog := s.bk.busLog ++ [.trig .tx data] } } := rfl

/-- WRITE's poll that sees INT ends it, as the acknowledge check says, in either mode. -/
theorem writePoll_flag (flag : ctrlInt s.biu.ctrl = true) :
    writePoll s = if dataAcked s.biu.status then finish .ok (some .transferring) s
      else fail .dataNack s := by
  rw [writePoll, flag, pollWithin_flag]

theorem writePoll_spin (noFlag : ctrlInt s.biu.ctrl = false)
    (faithful : s.cfg.params.byteWaitBudget = .unbounded) : writePoll s = s := by
  rw [writePoll, noFlag, pollWithin_spin _ _ faithful]

theorem writePoll_last {b : Nat} (noFlag : ctrlInt s.biu.ctrl = false)
    (hardened : s.cfg.params.byteWaitBudget = .polls b) (cnt : s.eng.cnt = .polls 1) :
    writePoll s = fail .dataTimeout (s.withEng { s.eng with cnt := .polls 0 }) := by
  rw [writePoll, noFlag, pollWithin_last _ _ hardened cnt]

theorem writePoll_more {b n : Nat} (noFlag : ctrlInt s.biu.ctrl = false)
    (hardened : s.cfg.params.byteWaitBudget = .polls b) (cnt : s.eng.cnt = .polls (n + 2)) :
    writePoll s = s.withEng { s.eng with cnt := .polls (n + 1) } := by
  rw [writePoll, noFlag, pollWithin_more _ _ hardened cnt]

end

/-- Settles O5: the sequencer stands at WRITE's trigger. -/
theorem writeTriggersTransmission : Obligations.WriteTriggersTransmission := by
  unfold Obligations.WriteTriggersTransmission
  intro data s atTrigger
  rw [exec_write_at_trigger data atTrigger, writeTrigger_eq]

/-- Settles O6: with INT seen, the acknowledge check decides, and its one code is that of R80;
without it, the mode and the counter do. -/
theorem writePollOutcomes : Obligations.WritePollOutcomes := by
  unfold Obligations.WritePollOutcomes
  intro data s atPoll
  rw [exec_write_at_poll data atPoll]
  refine ⟨fun flag acked => ?_, fun flag notAcked => ?_, fun noFlag faithful => ?_,
    fun b noFlag hardened last => ?_, fun b n noFlag hardened more => ?_⟩
  · rw [writePoll_flag flag, if_pos ((dataAcked_iff _).mpr acked)]
    rfl
  · rw [writePoll_flag flag, if_neg (mt (dataAcked_iff _).mp notAcked)]
    rfl
  · rw [writePoll_spin noFlag faithful]
  · rw [writePoll_last noFlag hardened last]
    rfl
  · rw [writePoll_more noFlag hardened more]
    rfl

/-! READ_NACK (R165, R166) -/

section
variable (ignored : Byte) {s : State}

/-- Where the sequencer stands at READ_NACK's trigger, executing READ_NACK is that step (R107). -/
theorem exec_readNack_at_trigger (atTrigger : s.eng.eseq = .sReadTrig) :
    exec (.readNack ignored) s = .next (readTrigger s) := by
  simp only [exec, execReadNack, atTrigger]

/-- Where the sequencer stands at READ_NACK's poll, executing READ_NACK is that poll (R107). -/
theorem exec_readNack_at_poll (atPoll : s.eng.eseq = .sReadPoll) :
    exec (.readNack ignored) s = .next (readPoll s) := by
  simp only [exec, execReadNack, atPoll]

/-- READ_NACK's trigger, field by field: BIU.DATA is kept, and logged as it stands (R111). -/
theorem readTrigger_eq (s : State) : readTrigger s = { s with
    eng := { s.eng with cnt := s.cfg.params.byteWaitBudget, eseq := .sReadPoll }
    biu := { s.biu with ctrl := 0x04, pending := .xfer }
    bk := { s.bk with
      unsync := s.bk.unsync || decide (s.biu.pending ≠ .none)
      busLog := s.bk.busLog ++ [.trig .rxNack s.biu.data] } } := rfl

/-- READ_NACK's poll that sees INT ends it with the received byte, whatever the status (R164). -/
theorem readPoll_flag (flag : ctrlInt s.biu.ctrl = true) :
    readPoll s =
      finish .ok (some .transferring) (s.withHr { s.hr with rxdata := s.biu.data }) := by
  rw [readPoll, flag, pollWithin_flag]

theorem readPoll_spin (noFlag : ctrlInt s.biu.ctrl = false)
    (faithful : s.cfg.params.byteWaitBudget = .unbounded) : readPoll s = s := by
  rw [readPoll, noFlag, pollWithin_spin _ _ faithful]

theorem readPoll_last {b : Nat} (noFlag : ctrlInt s.biu.ctrl = false)
    (hardened : s.cfg.params.byteWaitBudget = .polls b) (cnt : s.eng.cnt = .polls 1) :
    readPoll s = fail .readTimeout (s.withEng { s.eng with cnt := .polls 0 }) := by
  rw [readPoll, noFlag, pollWithin_last _ _ hardened cnt]

theorem readPoll_more {b n : Nat} (noFlag : ctrlInt s.biu.ctrl = false)
    (hardened : s.cfg.params.byteWaitBudget = .polls b) (cnt : s.eng.cnt = .polls (n + 2)) :
    readPoll s = s.withEng { s.eng with cnt := .polls (n + 1) } := by
  rw [readPoll, noFlag, pollWithin_more _ _ hardened cnt]

end

/-- Settles O7: the sequencer stands at READ_NACK's trigger. -/
theorem readTriggersReceive : Obligations.ReadTriggersReceive := by
  unfold Obligations.ReadTriggersReceive
  intro ignored s atTrigger
  rw [exec_readNack_at_trigger ignored atTrigger, readTrigger_eq]

/-- Settles O8: with INT seen, the byte is taken without a look at the status; without it, the mode
and the counter decide. -/
theorem readPollOutcomes : Obligations.ReadPollOutcomes := by
  unfold Obligations.ReadPollOutcomes
  intro ignored s atPoll
  rw [exec_readNack_at_poll ignored atPoll]
  refine ⟨fun flag => ?_, fun noFlag faithful => ?_, fun b noFlag hardened last => ?_,
    fun b n noFlag hardened more => ?_⟩
  · rw [readPoll_flag flag]
    rfl
  · rw [readPoll_spin noFlag faithful]
  · rw [readPoll_last noFlag hardened last]
    rfl
  · rw [readPoll_more noFlag hardened more]
    rfl

end Sys2Proof.Machine
end

section
/-! PROOFS. R168: how many engine steps a command takes at most that triggers once and has one
bounded wait, and with it WRITE and READ_NACK in hardened mode. -/

namespace Sys2Proof.Machine

/-- An event of host or BIU leaves the engine of a running command as it is. -/
theorem move_eng_of_busy {e : Event} {s : State} (busy : s.eng.busy = true) (noEngine : e ≠ .engine)
    (noReset : e ≠ .reset) : (move e s).eng = s.eng := by
  cases e with
  | host a => exact (hostStep_busy a s busy).1
  | engine => exact absurd rfl noEngine
  | biu d => exact (biuStep_frame d s).2.1
  | reset => exact absurd rfl noReset

/-! A command of one wait -/

/-- The command of one trigger step and one poll state: the trigger begins the wait, and a poll of
the bounded wait ends the command, unless it only counts down with polls left. -/
structure OneWait (trig poll : Sequencer) (Ended : State → Prop) : Prop where
  triggers : ∀ {s : State} {b : Budget}, s.eng.eseq = trig → waitBudgetOf s.cfg poll = some b →
    (engineMove s).eng = { s.eng with cnt := b, eseq := poll }
  polls : ∀ {s : State} {b n : Nat}, s.eng.eseq = poll → waitBudgetOf s.cfg poll = some (.polls b) →
    s.eng.cnt = .polls (n + 1) →
    Ended (engineMove s) ∨ n ≠ 0 ∧ (engineMove s).eng = { s.eng with cnt := .polls n }

/-- Such a command runs with budget `b` and has at most `left` engine steps left. -/
structure InWait (trig poll : Sequencer) (b left : Nat) (s : State) : Prop where
  busy : s.eng.busy = true
  budget : waitBudgetOf s.cfg poll = some (.polls b)
  stands : (s.eng.eseq = trig ∧ left = 1 + b) ∨
    (s.eng.eseq = poll ∧ s.eng.cnt = .polls left ∧ left ≠ 0)

section
variable {trig poll : Sequencer} {b left : Nat} {s : State} {Ended : State → Prop}

theorem InWait.left_pos (wait : InWait trig poll b left s) : 1 ≤ left := by
  rcases wait.stands with ⟨-, rfl⟩ | ⟨-, -, more⟩
  · exact Nat.le_add_right 1 b
  · exact Nat.one_le_iff_ne_zero.mpr more

/-- An engine step of the wait ends the command or leaves it one engine step less. -/
theorem OneWait.engineMove_ends_or_runs (cmd : OneWait trig poll Ended)
    (wait : InWait trig poll b left s) :
    Ended (engineMove s) ∨
      ∃ less, InWait trig poll b less (engineMove s) ∧ less + 1 = left := by
  have budget : waitBudgetOf (engineMove s).cfg poll = some (.polls b) := by
    rw [(engineMove_cfg_bk s wait.busy).1, wait.budget]
  rcases wait.stands with ⟨q, rfl⟩ | ⟨q, cnt, more⟩
  · have eng := cmd.triggers q wait.budget
    have loaded : 1 ≤ b := (live_loaded s.cfg poll wait.budget _ wait.budget).1
    exact .inr ⟨b, ⟨by rw [eng, wait.busy], budget,
      .inr ⟨by rw [eng], by rw [eng], Nat.one_le_iff_ne_zero.mp loaded⟩⟩, Nat.add_comm b 1⟩
  · obtain ⟨n, rfl⟩ := Nat.exists_eq_succ_of_ne_zero more
    refine (cmd.polls q wait.budget cnt).imp_right fun ⟨more, eng⟩ => ⟨n, ⟨?_, budget, ?_⟩, rfl⟩
    · rw [eng, wait.busy]
    · exact .inr ⟨by rw [eng, q], by rw [eng], more⟩

/-- An event ends the command or leaves it running, an engine step with one step less left. -/
theorem OneWait.move_ends_or_runs (cmd : OneWait trig poll Ended)
    (wait : InWait trig poll b left s) {e : Event} (noReset : e ≠ .reset) :
    Ended (move e s) ∨
      ∃ less, InWait trig poll b less (move e s) ∧ engineSteps [e] + less = left := by
  by_cases engine : e = .engine
  · subst engine
    rw [move_engine wait.busy]
    exact (cmd.engineMove_ends_or_runs wait).imp_right fun ⟨n, runs, fewer⟩ =>
      ⟨n, runs, (Nat.add_comm 1 n).trans fewer⟩
  · have eng := move_eng_of_busy wait.busy engine noReset
    have noStep : engineSteps [e] = 0 := by
      cases e with
      | engine => exact absurd rfl engine
      | host | biu | reset => rfl
    refine .inr ⟨left, ⟨?_, ?_, ?_⟩, by rw [noStep, Nat.zero_add]⟩
    · rw [eng, wait.busy]
    · rw [move_cfg, wait.budget]
    · rw [eng]
      exact wait.stands

/-- A list of events with all the engine steps the command has left ends it along the way. -/
theorem OneWait.ends_within (cmd : OneWait trig poll Ended) {es : List Event}
    (wait : InWait trig poll b left s) (noReset : Event.reset ∉ es)
    (enough : left ≤ engineSteps es) :
    ∃ pre suf, es = pre ++ suf ∧ engineSteps pre ≤ left ∧ Ended (moves pre s) := by
  induction es generalizing s left with
  | nil => exact absurd (wait.left_pos.trans enough) (by decide)
  | cons e es ih =>
    rw [engineSteps_cons] at enough
    obtain ⟨notReset, noReset⟩ := List.ne_and_not_mem_of_not_mem_cons noReset
    rcases cmd.move_ends_or_runs wait notReset.symm with ended | ⟨less, runs, fewer⟩
    · exact ⟨[e], es, rfl, (engineSteps_singleton_le e).trans wait.left_pos, ended⟩
    · obtain ⟨pre, suf, rfl, within, ended⟩ := ih runs noReset (by omega)
      exact ⟨e :: pre, suf, rfl, by rw [engineSteps_cons]; omega, ended⟩

end

/-- A poll of a bounded wait ends the command, if its success and its timeout do, or it only counts
down, with polls left (R115). -/
theorem pollWithin_ends_or_counts {Ended : State → Prop} {s : State} {ok late : State → State}
    {b : Budget} {m n : Nat} (flag : Bool) (okEnds : Ended (ok s)) (lateEnds : ∀ t, Ended (late t))
    (bounded : b = .polls m) (cnt : s.eng.cnt = .polls (n + 1)) :
    Ended (pollWithin b flag ok late s) ∨ n ≠ 0 ∧
      (pollWithin b flag ok late s).eng = { s.eng with cnt := .polls n } := by
  cases flag with
  | true =>
    rw [pollWithin_flag]
    exact .inl okEnds
  | false =>
    cases n with
    | zero =>
      rw [pollWithin_last _ _ bounded cnt]
      exact .inl (lateEnds _)
    | succ k =>
      rw [pollWithin_more _ _ bounded cnt]
      exact .inr ⟨Nat.succ_ne_zero k, rfl⟩

/-! WRITE and READ_NACK (R162, R166, R168) -/

/-- A WRITE has ended with one of its three results. -/
def WriteEnded (s : State) : Prop :=
  s.eng.busy = false ∧
    ((s.hr.result = 0x00 ∧ s.eng.phase = .transferring) ∨
     ((s.hr.result = 0x05 ∨ s.hr.result = 0x06) ∧ s.eng.phase = .error))

/-- A READ_NACK has ended with one of its two results. -/
def ReadEnded (s : State) : Prop :=
  s.eng.busy = false ∧
    ((s.hr.result = 0x00 ∧ s.eng.phase = .transferring) ∨
     (s.hr.result = 0x07 ∧ s.eng.phase = .error))

theorem write_oneWait : OneWait .sWriteTrig .sWritePoll WriteEnded where
  triggers := fun {s b} q budget => by
    have loaded : s.cfg.params.byteWaitBudget = b := Option.some.inj budget
    simp only [engineMove, q, writeTrigger_eq, loaded]
  polls := fun {s b n} q budget cnt => by
    have poll : engineMove s = writePoll s := by simp only [engineMove, q]
    rw [poll]
    refine pollWithin_ends_or_counts _ ?_ (fun t => ?_) (Option.some.inj budget) cnt
    · cases dataAcked s.biu.status
      · exact ⟨rfl, .inr ⟨.inl rfl, rfl⟩⟩
      · exact ⟨rfl, .inl ⟨rfl, rfl⟩⟩
    · exact ⟨rfl, .inr ⟨.inr rfl, rfl⟩⟩

theorem readNack_oneWait : OneWait .sReadTrig .sReadPoll ReadEnded where
  triggers := fun {s b} q budget => by
    have loaded : s.cfg.params.byteWaitBudget = b := Option.some.inj budget
    simp only [engineMove, q, readTrigger_eq, loaded]
  polls := fun {s b n} q budget cnt => by
    have poll : engineMove s = readPoll s := by simp only [engineMove, q]
    rw [poll]
    exact pollWithin_ends_or_counts _ ⟨rfl, .inl ⟨rfl, rfl⟩⟩ (fun t => ⟨rfl, .inr ⟨rfl, rfl⟩⟩)
      (Option.some.inj budget) cnt

/-- Settles O50: at its trigger each of the two has 1 + BYTE_WAIT_BUDGET engine steps left. -/
theorem hardenedByteAlwaysEnds : Obligations.HardenedByteAlwaysEnds := by
  unfold Obligations.HardenedByteAlwaysEnds
  intro s es b busy hardened noReset enough
  have budget : some s.cfg.params.byteWaitBudget = some (.polls b) := congrArg some hardened
  refine ⟨fun trig => ?_, fun trig => ?_⟩
  · obtain ⟨pre, suf, split, within, idle, outcome⟩ :=
      write_oneWait.ends_within ⟨busy, budget, .inl ⟨trig, rfl⟩⟩ noReset enough
    exact ⟨pre, suf, _, split, within, runPlan_eq pre s, idle, outcome⟩
  · obtain ⟨pre, suf, split, within, idle, outcome⟩ :=
      readNack_oneWait.ends_within ⟨busy, budget, .inl ⟨trig, rfl⟩⟩ noReset enough
    exact ⟨pre, suf, _, split, within, runPlan_eq pre s, idle, outcome⟩

end Sys2Proof.Machine
end

section
/-! PROOFS. The statements of 44_stop.md: the trigger and the poll of STOP with their whole next states,
the bus a STOP leaves, and how many engine steps it takes at most. -/

namespace Sys2Proof.Machine

/-! Single steps (R181, R182) -/

section
variable (addr : BitVec 7) (ignored : BitVec 1) {s : State}

/-- Where the sequencer stands at STOP's trigger, executing STOP is that step (R107). -/
theorem exec_stop_at_trigger (atTrigger : s.eng.eseq = .sStopTrig) :
    exec (.stop addr ignored) s = .next (stopTrigger s) := by
  simp only [exec, execStop, atTrigger]

/-- Where the sequencer stands at STOP's poll, executing STOP is that poll (R107). -/
theorem exec_stop_at_poll (atPoll : s.eng.eseq = .sStopPoll) :
    exec (.stop addr ignored) s = .next (stopPoll s) := by
  simp only [exec, execStop, atPoll]

/-- STOP's trigger, field by field: BIU.DATA is kept, and logged as it stands (R111). -/
theorem stopTrigger_eq (s : State) : stopTrigger s = { s with
    eng := { s.eng with cnt := s.cfg.params.stopWaitBudget, eseq := .sStopPoll }
    biu := { s.biu with ctrl := 0x14, pending := .stop }
    bk := { s.bk with
      unsync := s.bk.unsync || decide (s.biu.pending ≠ .none)
      busLog := s.bk.busLog ++ [.trig .stop s.biu.data] } } := rfl

/-- STOP's poll that sees STO clear ends it, whatever the budget. -/
theorem stopPoll_cleared (cleared : ctrlSto s.biu.ctrl = false) : stopPoll s = stopEnds false s := by
  rw [stopPoll, cleared, Bool.not_false, pollWithin_flag]

theorem stopPoll_spin (waiting : ctrlSto s.biu.ctrl = true)
    (unbounded : s.cfg.params.stopWaitBudget = .unbounded) : stopPoll s = s := by
  rw [stopPoll, waiting, Bool.not_true, pollWithin_spin _ _ unbounded]

theorem stopPoll_last {b : Nat} (waiting : ctrlSto s.biu.ctrl = true)
    (bounded : s.cfg.params.stopWaitBudget = .polls b) (cnt : s.eng.cnt = .polls 1) :
    stopPoll s = stopEnds true (s.withEng { s.eng with cnt := .polls 0 }) := by
  rw [stopPoll, waiting, Bool.not_true, pollWithin_last _ _ bounded cnt]

theorem stopPoll_more {b n : Nat} (waiting : ctrlSto s.biu.ctrl = true)
    (bounded : s.cfg.params.stopWaitBudget = .polls b) (cnt : s.eng.cnt = .polls (n + 2)) :
    stopPoll s = s.withEng { s.eng with cnt := .polls (n + 1) } := by
  rw [stopPoll, waiting, Bool.not_true, pollWithin_more _ _ bounded cnt]

end

/-- Settles O9: the sequencer stands at STOP's trigger. -/
theorem stopTriggersStopCondition : Obligations.StopTriggersStopCondition := by
  unfold Obligations.StopTriggersStopCondition
  intro addr ignored s atTrigger
  rw [exec_stop_at_trigger addr ignored atTrigger, stopTrigger_eq]

/-- Settles O10: with STO seen clear, STOP ends unexpired; without it, the budget and the counter
decide. -/
theorem stopPollOutcomes : Obligations.StopPollOutcomes := by
  unfold Obligations.StopPollOutcomes
  intro addr ignored s atPoll
  rw [exec_stop_at_poll addr ignored atPoll]
  refine ⟨fun cleared => ?_, fun waiting unbounded => ?_, fun b waiting bounded last => ?_,
    fun b n waiting bounded more => ?_⟩
  · rw [stopPoll_cleared cleared]
    rfl
  · rw [stopPoll_spin waiting unbounded]
  · rw [stopPoll_last waiting bounded last]
    rfl
  · rw [stopPoll_more waiting bounded more]
    rfl

/-! The bus after an unexpired STOP (R185) -/

/-- A STOP still running ends unexpired only by the poll that sees STO clear: a poll that does not
sets BK.last_stop_expired or keeps the command busy. -/
theorem sto_clear_of_stopPoll_ends {s : State} (busy : s.eng.busy = true)
    (ended : (stopPoll s).eng.busy = false) (unexpired : (stopPoll s).bk.lastStopExpired = false) :
    ctrlSto s.biu.ctrl = false := by
  by_contra notClear
  have waiting : ctrlSto s.biu.ctrl = true := Bool.eq_true_of_not_eq_false notClear
  cases budget : s.cfg.params.stopWaitBudget with
  | unbounded =>
    rw [stopPoll_spin waiting budget, busy] at ended
    contradiction
  | polls b =>
    rw [stopPoll, waiting, Bool.not_true, budget, pollWithin_polls] at ended unexpired
    rcases pollBounded_cases s false (stopEnds false) (stopEnds true) with
      ⟨flag, -⟩ | ⟨-, -, expired⟩ | ⟨-, -, counted⟩
    · contradiction
    · rw [expired] at unexpired
      contradiction
    · rw [counted, State.withEng_eng, busy] at ended
      contradiction

/-- On a synchronised bus STOP's wait sees STO clear only once the STOP is done. -/
theorem BusAgrees.stopDone {s : State} (bus : BusAgrees s) (wait : WaitAgrees s)
    (atPoll : s.eng.eseq = .sStopPoll) (cleared : ctrlSto s.biu.ctrl = false) :
    s.bk.busLog.getLast? = some .stopDone ∧ s.biu.pending = .none := by
  simp only [WaitAgrees, atPoll] at wait
  obtain ⟨pending, ctrl⟩ := wait.resolve_left (bus.pending_ne_stop cleared)
  refine ⟨?_, pending⟩
  simpa [BusAgrees, pending, ctrl] using bus

/-- STOP's poll that ends it unexpired saw STO clear, and changes neither the BIU nor the log. -/
theorem Inv.stopPoll_releases {s : State} (inv : Inv s) (atPoll : s.eng.eseq = .sStopPoll)
    (ended : (stopPoll s).eng.busy = false) (released : BusReleased (stopPoll s)) :
    (stopPoll s).bk.busLog.getLast? = some .stopDone ∧ (stopPoll s).biu.pending = .none ∧
      (stopPoll s).eng.phase = .idle := by
  obtain ⟨unexpired, sync⟩ := released
  have busy : s.eng.busy = true := inv.busy.mpr (by simp [atPoll])
  have cleared := sto_clear_of_stopPoll_ends busy ended unexpired
  rw [stopPoll_cleared cleared] at sync ⊢
  obtain ⟨log, pending⟩ := (inv.bus sync).stopDone (inv.wait sync) atPoll cleared
  exact ⟨log, pending, rfl⟩

/-- Settles O44: the step is STOP's poll, in a state of the invariant. -/
theorem stopReleasesBus : Obligations.StopReleasesBus := by
  unfold Obligations.StopReleasesBus
  intro s t inv hev atPoll hstep ended released
  obtain rfl := step_next_iff.mp hstep
  have busy : s.eng.busy = true := inv.busy.mpr (by simp [atPoll])
  rw [← State.advance_eng s] at atPoll busy
  have poll : move s.nextEvent s.advance = stopPoll s.advance := by
    rw [hev, move_engine busy]
    simp only [engineMove, atPoll]
  rw [poll] at ended released ⊢
  exact (advance_inv inv).stopPoll_releases atPoll ended released

/-! The bound on a STOP with a finite budget (R184) -/

/-- A STOP has ended: with OK in phase Idle, expired or not. -/
def StopEnded (s : State) : Prop :=
  s.eng.busy = false ∧ s.hr.result = 0x00 ∧ s.eng.phase = .idle

theorem stopEnds_stopEnded (expired : Bool) (s : State) : StopEnded (stopEnds expired s) :=
  ⟨rfl, rfl, rfl⟩

theorem stop_oneWait : OneWait .sStopTrig .sStopPoll StopEnded where
  triggers := fun {s b} q budget => by
    have loaded : s.cfg.params.stopWaitBudget = b := Option.some.inj budget
    simp only [engineMove, q, stopTrigger_eq, loaded]
  polls := fun {s b n} q budget cnt => by
    have poll : engineMove s = stopPoll s := by simp only [engineMove, q]
    rw [poll]
    exact pollWithin_ends_or_counts _ (stopEnds_stopEnded false s) (stopEnds_stopEnded true)
      (Option.some.inj budget) cnt

/-- Settles O49: at its trigger a STOP has 1 + STOP_WAIT_BUDGET engine steps left. -/
theorem boundedStopAlwaysEnds : Obligations.BoundedStopAlwaysEnds := by
  unfold Obligations.BoundedStopAlwaysEnds
  intro s es b busy trig bounded noReset enough
  have budget : some s.cfg.params.stopWaitBudget = some (.polls b) := congrArg some bounded
  obtain ⟨pre, suf, split, within, ended⟩ :=
    stop_oneWait.ends_within ⟨busy, budget, .inl ⟨trig, rfl⟩⟩ noReset enough
  exact ⟨pre, suf, _, split, within, runPlan_eq pre s, ended⟩

end Sys2Proof.Machine
end

section
/-! PROOFS. The statements of 60_exceptions.md: how ENG.phase enters and leaves Error, what a
failure leaves outstanding, the contract check at acceptance, and that every step answers a next
state. -/

namespace Sys2Proof.Machine

/-! Who moves ENG.phase (R31, R202) -/

/-- No host access touches ENG.phase. -/
theorem hostStep_phase (a : HostAccess) (s : State) :
    (hostStep a s).eng.phase = s.eng.phase := by
  have moved := hostStep_moved a s
  generalize hostStep a s = t at moved
  cases moved <;> simp [refuse]

/-- But for a reset, only a step of the busy engine changes ENG.phase. -/
theorem move_changes_phase {e : Event} {s : State} (noReset : e ≠ .reset)
    (changed : (move e s).eng.phase ≠ s.eng.phase) : e = .engine ∧ s.eng.busy = true := by
  cases e with
  | reset => exact absurd rfl noReset
  | host a => exact absurd (hostStep_phase a s) changed
  | biu d => exact absurd (congrArg Engine.phase (biuStep_frame d s).2.1) changed
  | engine =>
    refine ⟨rfl, ?_⟩
    by_contra idle
    rw [move_engine_idle (by simpa using idle)] at changed
    exact changed rfl

/-- The failures that the wait of a poll state may end in (R142, R143, R162, R166). -/
def waitFailures : Sequencer → List ResultCode
  | .sStartPoll1 => [.startTimeout, .startBadStatus]
  | .sStartPoll2 => [.addrTimeout, .addrNack]
  | .sWritePoll => [.dataNack, .dataTimeout]
  | .sReadPoll => [.readTimeout]
  | .sNone | .sInit | .sStartTrig | .sWriteTrig | .sReadTrig | .sStopTrig | .sStopPoll => []

/-- The ways in which one engine step can treat ENG.phase. -/
inductive PhaseMoved (s t : State) : Prop
  | kept (same : t.eng.phase = s.eng.phase)
  /-- A wait of START, WRITE or READ_NACK fails, in phase Error (R202). -/
  | failed (r : ResultCode) (failure : r ∈ waitFailures s.eng.eseq)
      (ended : t.eng.busy = false) (result : t.hr.result = r.byte) (error : t.eng.phase = .error)
  /-- A wait of START, WRITE or READ_NACK succeeds. -/
  | succeeded (wait : waitFailures s.eng.eseq ≠ []) (noError : t.eng.phase ≠ .error)
  /-- STOP's wait ends, expired or not (R182). -/
  | stopped (q : s.eng.eseq = .sStopPoll) (idle : t.eng.phase = .idle)

theorem fail_phaseMoved {s t : State} {r : ResultCode} (failure : r ∈ waitFailures s.eng.eseq) :
    PhaseMoved s (fail r t) := .failed r failure rfl rfl rfl

/-- Every engine step treats ENG.phase in one of the ways of `PhaseMoved`. -/
theorem engineMove_phaseMoved (s : State) : PhaseMoved s (engineMove s) := by
  have moved := engineMove_moved s
  generalize engineMove s = t at moved
  cases moved
  case startBadStatus q f c | addrNack q f c | dataNack q f c =>
    exact fail_phaseMoved (by simp [q, waitFailures])
  case sendAddress q f c | addressSent q f c | dataSent q f c | received q f =>
    exact .succeeded (by simp [q, waitFailures]) nofun
  case stopped q f => exact .stopped q rfl
  case expired q f b c =>
    rcases expires_cases (s.withEng { s.eng with cnt := .polls 0 }) q with
      ⟨e, h⟩ | ⟨e, h⟩ | ⟨e, h⟩ | ⟨e, h⟩ | ⟨e, h⟩ <;> rw [h] <;> change s.eng.eseq = _ at e
    case inr.inr.inr.inr => exact .stopped e rfl
    all_goals exact fail_phaseMoved (by simp [e, waitFailures])
  all_goals exact .kept rfl

/-! Leaving phase Error (R202) -/

/-- In contract, no wait of START, WRITE or READ_NACK stands in phase Error (R210). -/
theorem Inv.waitFailures_of_error {s : State} (inv : Inv s) (ok : s.bk.violation = false)
    (error : s.eng.phase = .error) : waitFailures s.eng.eseq = [] := by
  have contract := inv.contract ok
  have started := inv.started
  unfold ContractHolds at contract
  cases q : s.eng.eseq <;> simp [q, error] at contract started <;> rfl

/-- Settles O40: in contract, the one engine step that leaves phase Error is the end of STOP's
wait. -/
theorem errorLeftOnlyByStop : Obligations.ErrorLeftOnlyByStop := by
  unfold Obligations.ErrorLeftOnlyByStop
  intro s t inv hstep noReset ok error left
  obtain rfl := step_next_iff.mp hstep
  have noWait := inv.waitFailures_of_error ok error
  rw [← State.advance_eng s] at error noWait ⊢
  obtain ⟨hev, busy⟩ := move_changes_phase noReset fun same => left (same.trans error)
  rw [hev, move_engine busy] at left ⊢
  cases engineMove_phaseMoved s.advance with
  | kept same => exact absurd (same.trans error) left
  | failed r failure ended result error' => exact absurd error' left
  | succeeded wait noError => exact absurd noWait wait
  | stopped q idle => exact ⟨rfl, q, idle⟩

/-! Entering phase Error (R201, R202) -/

/-- The failures of the waits as HR.RESULT reports them (R78). -/
theorem waitFailures_bytes {q : Sequencer} {r : ResultCode} (failure : r ∈ waitFailures q) :
    (q = .sStartPoll1 ∧ (r.byte = 0x01 ∨ r.byte = 0x02)) ∨
    (q = .sStartPoll2 ∧ (r.byte = 0x03 ∨ r.byte = 0x04)) ∨
    (q = .sWritePoll ∧ (r.byte = 0x05 ∨ r.byte = 0x06)) ∨
    (q = .sReadPoll ∧ r.byte = 0x07) := by
  cases q <;> simp only [waitFailures, List.mem_cons, List.not_mem_nil, or_false] at failure
  case sReadPoll => simp [failure, ResultCode.byte]
  all_goals rcases failure with rfl | rfl <;> simp [ResultCode.byte]

/-- Settles O41: the one engine step that enters phase Error is the failure of a wait. -/
theorem entryToErrorReportsFailure : Obligations.EntryToErrorReportsFailure := by
  unfold Obligations.EntryToErrorReportsFailure
  intro s t hstep noError error
  obtain rfl := step_next_iff.mp hstep
  have noReset : s.nextEvent ≠ .reset := fun hev => by
    rw [hev] at error
    cases error
  rw [← State.advance_eng s] at noError ⊢
  obtain ⟨hev, busy⟩ := move_changes_phase noReset fun same => noError (same.symm.trans error)
  rw [hev, move_engine busy] at error ⊢
  cases engineMove_phaseMoved s.advance with
  | kept same => exact absurd (same.symm.trans error) noError
  | failed r failure ended result error' =>
    rw [result]
    exact ⟨rfl, ended, waitFailures_bytes failure⟩
  | succeeded wait noError' => exact absurd error noError'
  | stopped q idle => simp [idle] at error

/-! What a failure leaves outstanding (R204) -/

/-- A result that says a status check failed: START_BAD_STATUS, ADDR_NACK or DATA_NACK (R204). -/
def StatusRejected (result : Byte) : Prop :=
  result = 0x02 ∨ result = 0x04 ∨ result = 0x05

/-- An engine step that ends the command with a failed status check has seen INT, and leaves the BIU
(R142, R143, R162). -/
theorem engineMove_statusRejected {s : State} (busy : s.eng.busy = true)
    (ended : (engineMove s).eng.busy = false) (rejected : StatusRejected (engineMove s).hr.result) :
    ctrlInt s.biu.ctrl = true ∧ (engineMove s).biu = s.biu := by
  have moved := engineMove_moved s
  generalize engineMove s = t at moved ended rejected
  cases moved
  case startBadStatus q f c | addrNack q f c | dataNack q f c => exact ⟨f, rfl⟩
  case init | addressSent | dataSent | received | stopped =>
    exact absurd rejected (by simp [StatusRejected, initStep, stopEnds, ResultCode.byte])
  case expired q f b c =>
    rcases expires_cases (s.withEng { s.eng with cnt := .polls 0 }) q with
      ⟨-, h⟩ | ⟨-, h⟩ | ⟨-, h⟩ | ⟨-, h⟩ | ⟨-, h⟩ <;> rw [h] at rejected <;>
      exact absurd rejected (by simp [StatusRejected, fail, stopEnds, ResultCode.byte])
  all_goals exact absurd (ended.symm.trans busy) (by decide)

/-- Settles O42: the failed status check follows INT, and a synchronised BIU sets INT only where it
has nothing outstanding. -/
theorem nothingOutstandingAfterNack : Obligations.NothingOutstandingAfterNack := by
  unfold Obligations.NothingOutstandingAfterNack
  intro s t inv sync hev busy hstep ended rejected
  obtain rfl := step_next_iff.mp hstep
  rw [← State.advance_eng s] at busy
  rw [hev, move_engine busy] at ended rejected ⊢
  obtain ⟨int, biu⟩ := engineMove_statusRejected busy ended rejected
  rw [biu]
  exact ((advance_inv inv).bus (by simpa using sync)).pending_eq_none int

/-! Acceptance and totality (R104, R200, R210) -/

/-- Each opcode of R73 decodes, whatever the operand, to a command that begins at the opcode's first
step (R104). -/
theorem decode_firstStep {c : Byte} {q : Sequencer}
    (known : (c, q) ∈ [((0x01 : Byte), Sequencer.sInit), (0x02, .sStartTrig), (0x03, .sWriteTrig),
      (0x04, .sReadTrig), (0x05, .sStopTrig)]) (arg : Byte) :
    ∃ i, decode c arg = .ok i ∧ i.op = c ∧ firstStep i = q := by
  simp only [List.mem_cons, Prod.mk.injEq, List.not_mem_nil, or_false] at known
  rcases known with ⟨rfl, rfl⟩ | ⟨rfl, rfl⟩ | ⟨rfl, rfl⟩ | ⟨rfl, rfl⟩ | ⟨rfl, rfl⟩ <;>
    exact ⟨_, rfl, rfl, rfl⟩

/-- Settles O14: the step is the CMD write, which is accepted, and the contract check is the table
of R210. -/
theorem commandIssueAccepts : Obligations.CommandIssueAccepts := by
  unfold Obligations.CommandIssueAccepts
  intro s c q hev idle known
  obtain ⟨i, decodes, rfl, rfl⟩ := decode_firstStep known s.advance.hr.arg
  have accepted : move (.hostWrite 0 i.op) s.advance = _ :=
    hostWrite_cmd_accepted (s := s.advance) (by simpa using idle) decodes
  rw [step_eq, hev, accepted, accept_eq, contractOk_op]
  simp only [State.withHr_eng, State.withHr_bk, State.withHr_hr, State.advance_hr,
    State.advance_eng, State.advance_bk]
  rfl

/-- Settles O36: the next state is the move of the step's event. -/
theorem everyStepAnswersNext : Obligations.EveryStepAnswersNext := by
  unfold Obligations.EveryStepAnswersNext
  exact fun s => ⟨_, step_eq s⟩

end Sys2Proof.Machine
end

section
/-! PROOFS. The statements of 70_reset_and_hazards.md: what power-on reset sets and keeps, and the state
it leaves. -/

namespace Sys2Proof.Machine

/-! Power-on reset (R230) -/

/-- Reset sets the four state groups and keeps what is no state of the block: the configuration, the
agenda and the count of drawn events (R230, R100). -/
theorem powerOnReset_eq (s : State) :
    powerOnReset s = { s with hr := .reset, eng := .reset, biu := .reset, bk := .reset } := rfl

/-- A step that takes the reset event is the reset of the advanced state. -/
theorem step_reset {s : State} (hev : s.nextEvent = .reset) :
    step s = .next (powerOnReset s.advance) := by
  rw [step_eq, hev]
  rfl

/-- Settles O24: the step is power-on reset, whose four reset records hold the values the rules give. -/
theorem resetGivesEveryFieldItsValue : Obligations.ResetGivesEveryFieldItsValue := by
  unfold Obligations.ResetGivesEveryFieldItsValue
  intro s hev
  rw [step_reset hev, powerOnReset_eq, HostRegs.reset, Engine.reset, Biu.reset, Book.reset]

/-! The state after reset (R231) -/

/-- Right after reset the engine is idle in phase Idle with no BIU action outstanding. -/
theorem resetWith_quiescent (c : Config) : Quiescent (State.resetWith c) := ⟨rfl, rfl, rfl⟩

/-- The engine's reset state shows as an all-zero HR.ENGSTAT: direction, phase and busy all code to 0
(R25). -/
theorem engstat_reset : engstat Engine.reset = 0x00 := by decide

/-- Settles O25: the block is quiescent by its reset engine and BIU, and the two reads are those of the
reset engine and of the reset BITRATE. -/
theorem resetStateIsQuiescent : Obligations.ResetStateIsQuiescent := by
  unfold Obligations.ResetStateIsQuiescent
  refine ⟨rfl, fun c => ⟨resetWith_quiescent c, rfl, ?engstat, ?bitrate⟩⟩
  case engstat => exact (hostRead_engstat _).trans engstat_reset
  case bitrate => exact hostRead_bitrate _

end Sys2Proof.Machine
end

section
/-! PROOFS. The statements on the model's own choices: the ignored operand bits a decoded command keeps,
the placement of an instruction, and an event that is not enabled. -/

namespace Sys2Proof

/-! The word of a decoded command (R70, R73) -/

/-- A command word is its op over its operand (R70). -/
theorem word_op_append_arg (w : Word) : (w.op ++ w.arg : Word) = w :=
  (BitVec.extractLsb'_append_extractLsb'_eq_extractLsb' (start₁ := 0) (len₁ := 8) rfl).trans
    BitVec.extractLsb'_eq_self

/-- A decoded command has the opcode and the operand it was decoded from: the ignored operand bits are
kept, and a START or STOP puts the two parts of its operand together again. -/
theorem op_arg_of_decode {op arg : Byte} {i : Instr} (decodes : decode op arg = .ok i) :
    i.op = op ∧ i.arg = arg := by
  have known : op ∈ [(0x01 : Byte), 0x02, 0x03, 0x04, 0x05] := by
    by_contra reserved
    simp [decode_reserved reserved] at decodes
  simp only [List.mem_cons, List.not_mem_nil, or_false] at known
  rcases known with rfl | rfl | rfl | rfl | rfl <;> cases decodes
  · exact ⟨rfl, rfl⟩
  · exact ⟨rfl, Machine.slaByte_latched arg⟩
  · exact ⟨rfl, rfl⟩
  · exact ⟨rfl, rfl⟩
  · exact ⟨rfl, Machine.arg_parts arg⟩

theorem encode_of_decodeWord {w : Word} {i : Instr} (decodes : decodeWord w = .ok i) :
    encode i = w := by
  obtain ⟨op, arg⟩ := op_arg_of_decode decodes
  rw [encode, op, arg, word_op_append_arg]

namespace Machine

/-- Settles O28: op and operand of the decoded command are those of the word. -/
theorem encodeOfDecode : Obligations.EncodeOfDecode := by
  unfold Obligations.EncodeOfDecode
  exact fun w i => encode_of_decodeWord

/-! Placement (log entry 5) -/

/-- The placement of a command's word: latched in a busy engine at the command's first step, with the
engine the next to step. -/
theorem withFetchWord_encode (i : Instr) (s : State) :
    s.withFetchWord 16 (encode i).toNat =
      (s.withEng { s.eng with
          busy := true, eseq := firstStep i, opCmd := i.op, opArg := i.arg }).withAgenda
        (.engine :: s.agenda) := by
  have word : BitVec.ofNat 16 ((encode i).toNat % 2 ^ 16) = encode i := by
    rw [Nat.mod_eq_of_lt (encode i).isLt, BitVec.ofNat_toNat, BitVec.setWidth_eq]
  unfold State.withFetchWord
  simp only [word, decodeWord_encode]
  rw [encode, word_op_append, word_arg_append]

/-- Settles O32: the step is the engine's, whose sequencer and latched operand name the placed
command. -/
theorem placedWordRunsNext : Obligations.PlacedWordRunsNext := by
  unfold Obligations.PlacedWordRunsNext
  intro i s
  have decodes : decode i.op i.arg = .ok i := decode_own_op_arg i
  rw [withFetchWord_encode]
  exact stepRunsDecodedCommand _ i.op i rfl rfl (firstStep_opcode decodes) decodes

/-! Events that are not enabled (log entry 1) -/

/-- Settles O13: neither an idle engine nor a synchronised BIU with nothing outstanding moves. -/
theorem disabledStepsChangeNothing : Obligations.DisabledStepsChangeNothing := by
  unfold Obligations.DisabledStepsChangeNothing
  refine fun s => ⟨fun hev idle => ?engine, fun d hev sync none => ?biu⟩ <;> rw [step_eq, hev]
  case engine => rw [move_engine_idle (by simpa using idle)]
  case biu =>
    have unmoved : move (.biu d) s.advance = s.advance :=
      biuStep_none (by simpa using sync) (by simpa using none) d
    rw [unmoved]

end Machine
end Sys2Proof
end
